-- ==== Sys2Proof/Word.lean ====
section
/-! DEFINITION. The words of the block: bit, byte, command word and numeric operand (spec/00_scope.md R7, R11, R12;
spec/30_encoding.md R60). -/

namespace Sys2Proof

/-- One element of a bit sequence (R12); `true` is 1. -/
abbrev Bit := Bool

/-- One byte, bits 7 down to 0, bit 0 least significant (R11). -/
abbrev Byte := BitVec 8

/-- The 40-bit command word `CMD40` (R60). -/
abbrev CmdWord := BitVec 40

/-- The `OPW` = 32 bits of a command's numeric operand `imm` (R7, R60). -/
abbrev Imm := BitVec 32

end Sys2Proof
end

