-- ==== Sys2Proof/Syntax.lean ====
section
/-! DEFINITION. The nine commands (spec/30_encoding.md R62), the items of the command port (R60, R61; spec/70 R180) and
the ways their framing can go wrong (spec/93 U9, U10). -/

namespace Sys2Proof

/-- The nine assigned opcodes, by name (R62). -/
inductive Op where
  | wbyte | wbytes | abf | ocpl | snap | lit | rep | setfinal | getstat
deriving DecidableEq, Repr

/-- The abstract syntax of R62, one constructor per row of spec/opcode_table.json. A command carries its payload as a
list, so its length is the announced number of beats (U10). -/
inductive Instr where
  /-- `WBYTE v` (R91). -/
  | wbyte (v : Int)
  /-- `WBYTES data` (R92). -/
  | wbytes (data : List Byte)
  /-- `ABF bits`, in stream order (R93). -/
  | abf (bits : List Bit)
  /-- `OCPL x`, `x = [x0, x1]` big-endian (R95). -/
  | ocpl (x0 x1 : Byte)
  /-- `SNAP` (R96). -/
  | snap
  /-- `LIT n` (R112). -/
  | lit (n : Int)
  /-- `REP n` (R115). -/
  | rep (n : Int)
  /-- `SETFINAL f` (R130). -/
  | setfinal (f : Bit)
  /-- `GETSTAT` (R131). -/
  | getstat
deriving DecidableEq, Repr

/-- The opcode a command is spelled with (R62). -/
def Instr.op : Instr → Op
  | .wbyte _ => .wbyte
  | .wbytes _ => .wbytes
  | .abf _ => .abf
  | .ocpl _ _ => .ocpl
  | .snap => .snap
  | .lit _ => .lit
  | .rep _ => .rep
  | .setfinal _ => .setfinal
  | .getstat => .getstat

/-- What the host puts on the command port, one item at a time: a command word (R60), a payload beat of format `P8` or
`P1` (R61), or the reset event, which comes from outside the command stream (R180). -/
inductive PortItem where
  | word (w : CmdWord)
  | p8 (b : Byte)
  | p1 (b : Bit)
  | reset
deriving DecidableEq, Repr

/-- Ways the items on the port are not a command the host may present. The spec assumes each never happens and gives it
no meaning ("refuse": U9, U10). -/
inductive FramingError where
  /-- A payload beat stands where a command word is due: more beats than the word announced (U10). -/
  | wordExpected
  /-- The port ends before the announced beats: fewer beats than the word announced (U10). -/
  | beatMissing
  /-- A beat of the other format, or a command word, stands where an announced beat is due (U10). -/
  | beatOfWrongKind
  /-- A reset event stands inside a command (R180, U9). -/
  | resetInCommand
deriving DecidableEq, Repr

end Sys2Proof
end

