-- ==== Sys2Proof/WellFormed.lean ====
section
/-! DEFINITION. Which commands a command word can spell: a signed operand fits `OPW` = 32 bits in two's complement and a
payload count fits 32 unsigned bits (spec/30_encoding.md R60, R63). An operand outside the range a command ACCEPTS is
well formed: presenting it is how the spec's range faults are reached (spec/60 R154). -/

namespace Sys2Proof

/-- `v` fits the 32-bit two's complement operand (R63). -/
def fitsSigned (v : Int) : Bool := decide (-(2 ^ 31) ≤ v) && decide (v < 2 ^ 31)

/-- `k` fits the 32-bit unsigned count (R61, R63). -/
def fitsCount (k : Nat) : Bool := decide (k < 2 ^ 32)

/-- The command has a command word (R60, R61, R63). -/
def Instr.wellFormed : Instr → Bool
  | .wbyte v => fitsSigned v
  | .wbytes data => fitsCount data.length
  | .abf bits => fitsCount bits.length
  | .ocpl _ _ => true
  | .snap => true
  | .lit n => fitsSigned n
  | .rep n => fitsSigned n
  | .setfinal _ => true
  | .getstat => true

end Sys2Proof
end

