-- ==== Sys2Proof/Decode.lean ====
section
/-! DEFINITION. The decoder of the command port and its encoder, from the encoding rules of spec/30_encoding.md (R60 to
R65) and spec/opcode_table.json. The decoder is total: on any items it answers a command, an illegal word, the reset
event, nothing presented, or a framing error by name. -/

namespace Sys2Proof

/-- The opcode numbers of R62. -/
def Op.code : Op → Byte
  | .wbyte => 0x01#8
  | .wbytes => 0x02#8
  | .abf => 0x03#8
  | .ocpl => 0x04#8
  | .snap => 0x05#8
  | .lit => 0x10#8
  | .rep => 0x11#8
  | .setfinal => 0x20#8
  | .getstat => 0x21#8

/-- The bits of `imm` that must be 0 (R63, R64). -/
def Op.zeroBits : Op → Imm
  | .wbyte => 0x00000000#32
  | .wbytes => 0x00000000#32
  | .abf => 0x00000000#32
  | .ocpl => 0xFFFF0000#32
  | .snap => 0xFFFFFFFF#32
  | .lit => 0x00000000#32
  | .rep => 0x00000000#32
  | .setfinal => 0xFFFFFFFE#32
  | .getstat => 0xFFFFFFFF#32

/-- The opcode map, in its order (R62). -/
def opMap : List Op := [.wbyte, .wbytes, .abf, .ocpl, .snap, .lit, .rep, .setfinal, .getstat]

/-- Field `op`, bits 39:32 (R60). -/
def opField (w : CmdWord) : Byte := w.extractLsb' 32 8

/-- Field `imm`, bits 31:0 (R60). -/
def immField (w : CmdWord) : Imm := w.extractLsb' 0 32

/-- The command word with the given fields (R60). -/
def cmdWord (op : Byte) (imm : Imm) : CmdWord := op ++ imm

/-- The word is spelled with opcode `o` and its must-be-zero field is zero (R62, R63). -/
def Op.matchesWord (o : Op) (w : CmdWord) : Bool :=
  opField w == o.code && (immField w &&& o.zeroBits) == 0#32

/-- The legal reading of a word, `none` for an illegal one (R64). -/
def wordOp (w : CmdWord) : Option Op := opMap.find? fun o => o.matchesWord w

/-- Consume exactly `k` beats of format `P8` (R61). -/
def takeBytes : Nat → List PortItem → Except FramingError (List Byte × List PortItem)
  | 0, ps => .ok ([], ps)
  | k + 1, .p8 b :: ps =>
    match takeBytes k ps with
    | .ok (bs, rest) => .ok (b :: bs, rest)
    | .error e => .error e
  | _ + 1, [] => .error .beatMissing
  | _ + 1, .reset :: _ => .error .resetInCommand
  | _ + 1, .p1 _ :: _ => .error .beatOfWrongKind
  | _ + 1, .word _ :: _ => .error .beatOfWrongKind

/-- Consume exactly `k` beats of format `P1` (R61). -/
def takeBits : Nat → List PortItem → Except FramingError (List Bit × List PortItem)
  | 0, ps => .ok ([], ps)
  | k + 1, .p1 b :: ps =>
    match takeBits k ps with
    | .ok (bs, rest) => .ok (b :: bs, rest)
    | .error e => .error e
  | _ + 1, [] => .error .beatMissing
  | _ + 1, .reset :: _ => .error .resetInCommand
  | _ + 1, .p8 _ :: _ => .error .beatOfWrongKind
  | _ + 1, .word _ :: _ => .error .beatOfWrongKind

/-- What stands at the front of the port. -/
inductive Decoded where
  /-- Nothing has been presented. -/
  | idle
  /-- The reset event (R180). -/
  | reset (rest : List PortItem)
  /-- A legal command with its payload (R62, R63). -/
  | command (i : Instr) (rest : List PortItem)
  /-- An illegal command word; it has no payload (R64). -/
  | illegal (w : CmdWord) (rest : List PortItem)
  /-- No command the host may present (U9, U10). -/
  | malformed (e : FramingError)
deriving DecidableEq, Repr

/-- Operand assembly of R63, for a legal word with opcode `o` and operand field `imm`. -/
def decodeOperand (o : Op) (imm : Imm) (rest : List PortItem) : Decoded :=
  match o with
  | .wbyte => .command (.wbyte imm.toInt) rest
  | .wbytes =>
    match takeBytes imm.toNat rest with
    | .ok (bs, rest') => .command (.wbytes bs) rest'
    | .error e => .malformed e
  | .abf =>
    match takeBits imm.toNat rest with
    | .ok (bs, rest') => .command (.abf bs) rest'
    | .error e => .malformed e
  | .ocpl => .command (.ocpl (imm.extractLsb' 8 8) (imm.extractLsb' 0 8)) rest
  | .snap => .command .snap rest
  | .lit => .command (.lit imm.toInt) rest
  | .rep => .command (.rep imm.toInt) rest
  | .setfinal => .command (.setfinal (imm.getLsbD 0)) rest
  | .getstat => .command .getstat rest

/-- A command word and the items after it (R64, R65). -/
def decodeWord (w : CmdWord) (rest : List PortItem) : Decoded :=
  match wordOp w with
  | some o => decodeOperand o (immField w) rest
  | none => .illegal w rest

/-- What the host presents next (R60, R61, R180). -/
def decode : List PortItem → Decoded
  | [] => .idle
  | .reset :: rest => .reset rest
  | .word w :: rest => decodeWord w rest
  | .p8 _ :: _ => .malformed .wordExpected
  | .p1 _ :: _ => .malformed .wordExpected

/-- The operand field that spells a command (R63). -/
def Instr.imm : Instr → Imm
  | .wbyte v => BitVec.ofInt 32 v
  | .wbytes data => BitVec.ofNat 32 data.length
  | .abf bits => BitVec.ofNat 32 bits.length
  | .ocpl x0 x1 => (x0 ++ x1).setWidth 32
  | .snap => 0#32
  | .lit n => BitVec.ofInt 32 n
  | .rep n => BitVec.ofInt 32 n
  | .setfinal f => BitVec.ofNat 32 f.toNat
  | .getstat => 0#32

/-- The payload beats of a command (R61). -/
def Instr.beats : Instr → List PortItem
  | .wbytes data => data.map .p8
  | .abf bits => bits.map .p1
  | .wbyte _ => []
  | .ocpl _ _ => []
  | .snap => []
  | .lit _ => []
  | .rep _ => []
  | .setfinal _ => []
  | .getstat => []

/-- The command word of a command (R60, R62, R63). -/
def Instr.word (i : Instr) : CmdWord := cmdWord i.op.code i.imm

/-- The items that present a command: its word, then its beats (R60, R61). -/
def encode (i : Instr) : List PortItem := .word i.word :: i.beats

/-- The number of beats a word announces (R61, R65). -/
def announcedBeats (w : CmdWord) : Nat :=
  if opField w = Op.wbytes.code ∨ opField w = Op.abf.code then (immField w).toNat else 0

/-- The items of an instruction whose bits are `w`, as spec/opcode_table.json numbers them: the command word is bits 39:0
and the announced beats take the bits from 40 on, in order; bits from `nbits` on are 0 (log entry 13). -/
def tableItems (nbits w : Nat) : List PortItem :=
  let v := w % 2 ^ nbits
  let word : CmdWord := BitVec.ofNat 40 v
  .word word ::
    match wordOp word with
    | some .wbytes => (List.range (immField word).toNat).map fun j => .p8 (BitVec.ofNat 8 (v >>> (40 + 8 * j)))
    | some .abf => (List.range (immField word).toNat).map fun j => .p1 (v.testBit (40 + j))
    | _ => []

/-- The instruction the decoder reads from those bits; `none` where it refuses. -/
def decodeTableWord (nbits w : Nat) : Option Instr :=
  match decode (tableItems nbits w) with
  | .command i _ => some i
  | _ => none

end Sys2Proof
end

