-- ==== Sys2Proof/Machine/Operands.lean ====
section
/-! DEFINITION. Operand and output formats: the pseudocode primitives of spec/00_scope.md R13, the packing of bits into
bytes (spec/30_encoding.md R71, R74 to R76) and the ones' complement (spec/40_writer.md R94). Each of the three decided
bit orders has one home here: `bitsValue` (D5), `hdr` (D6), `bitsMsb` (D7). -/

namespace Sys2Proof.Machine

/-- The low `OPW` = 32 bits of an integer, as `ERR.value` records it (R150). -/
def low32 (v : Int) : Imm := BitVec.ofInt 32 v

/-- `be_N(v)`, the `N`-byte big-endian byte sequence of `v` (R13). -/
def be (n v : Nat) : List Byte := (List.range n).map fun i => BitVec.ofNat 8 (v >>> (8 * (n - 1 - i)))

/-- `from_be(s)`, the unsigned integer a big-endian byte sequence stands for (R13). -/
def fromBe (s : List Byte) : Nat := s.foldl (fun v b => 256 * v + b.toNat) 0

/-- The least number of bytes that hold `v`. -/
def byteLength (v : Nat) : Nat := if v = 0 then 0 else Nat.log2 v / 8 + 1

/-- `be_N(v)` with `N` widened where `v` does not fit: R131 asks for the number itself, not for its low bytes. DESIGN
CHOICE of form, unsafe: log entry 6. -/
def beAtLeast (n v : Nat) : List Byte := be (max n (byteLength v)) v

/-- `bits_msb(c, w)`, the `w`-bit code word most significant bit first (R74). UNVERIFIED order (D7), unsafe: log entry 9. -/
def bitsMsb (c w : Nat) : List Bit := (List.range w).map fun i => c.testBit (w - 1 - i)

/-- `hdr(F, T)`, the header bits in stream order: `BFINAL`, then the low and the high bit of `BTYPE` (R71). UNVERIFIED
order of the `BTYPE` bits (D6), unsafe: log entry 8. -/
def hdr (final : Bit) (btype : BitVec 2) : List Bit := [final, btype.getLsbD 0, btype.getLsbD 1]

/-- `BTYPE` of a stored block (R70). -/
def btypeStored : BitVec 2 := 0b00#2

/-- `BTYPE` of a fixed-Huffman block (R70). -/
def btypeFixed : BitVec 2 := 0b01#2

/-- `sum of bs[i] * 2^i`: the first bit in stream order is the least significant (R44, R76). UNVERIFIED beyond the first
bit (D5), unsafe: log entry 7. -/
def bitsValue : List Bit → Nat
  | [] => 0
  | b :: bs => b.toNat + 2 * bitsValue bs

/-- The byte assembled from at most eight bits in stream order (R44, R76). -/
def byteOfBits (bs : List Bit) : Byte := BitVec.ofNat 8 (bitsValue bs)

/-- The number of zero bits that pad `m` bits to a byte boundary (R75). -/
def padLength (m : Nat) : Nat := (8 - m % 8) % 8

/-- `pack(bs)`: zero-pad to a byte boundary, then byte `j` takes elements `8j .. 8j+7` (R75, R76). -/
def pack (bs : List Bit) : List Byte :=
  let p := bs ++ List.replicate (padLength bs.length) false
  (List.range ((bs.length + 7) / 8)).map fun j => byteOfBits ((p.drop (8 * j)).take 8)

/-- The bits of a byte sequence in stream order, the inverse of `pack` (R44, R117). -/
def unpack (s : List Byte) : List Bit := s.flatMap fun b => (List.range 8).map fun i => b.getLsbD i

/-- `ones_complement`: the big-endian integer xored with all ones of the same width (R94). -/
def onesComplement (s : List Byte) : List Byte := be s.length (fromBe s ^^^ (2 ^ (8 * s.length) - 1))

end Sys2Proof.Machine
end

