-- ==== Sys2Proof/Machine/State.lean ====
section
/-! DEFINITION. The state of the block (spec/10_state.md R20 to R26, R33), its responses (spec/30_encoding.md R66) and the
named reasons a step can stop. -/

namespace Sys2Proof.Machine

/-- The byte buffer `BUF` as (address, byte) cells, addresses strictly rising; an address that is not listed holds no
value (R21, R40). -/
abbrev Memory := List Host.Cell

/-- The five fault causes of R150. -/
inductive FaultCause where
  | byteRange
  | lenRange
  | symbolRange
  | illegalCommand
  | overflow
deriving DecidableEq, Repr

/-- The kinds of fault: the document's one error kind and this spec's two (R150, R151). -/
inductive FaultKind where
  | rangeError
  | illegalCommand
  | overflow
deriving DecidableEq, Repr

/-- The status register `ERR` (R20, R26): `valid` 1 bit, `cause` 3 bits, `value` `OPW` = 32 bits. -/
structure Err where
  valid : Bool
  cause : BitVec 3
  value : Imm
deriving DecidableEq, Repr

/-- The outcome a response reports (R14, R66). -/
inductive Status where
  | ok
  | fault
  | refused
deriving DecidableEq, Repr

/-- The response of a command (R66). -/
structure Response where
  status : Status
  cause : BitVec 3
  data : List Byte
deriving DecidableEq, Repr

/-- The state: the six items of R20, then the model's own three fields. -/
structure State where
  /-- `BUF`, the byte buffer (R21). -/
  mem : Memory
  /-- `WPTR`, the write pointer (R22). -/
  wptr : Nat
  /-- `ACC`, the bits of the byte being assembled (R23). -/
  acc : List Bit
  /-- `CNT`, the fill count of `ACC` (R23). -/
  cnt : Nat
  /-- `FINAL`, the final flag (R25). -/
  final : Bit
  /-- `ERR`, the fault status (R26). -/
  err : Err
  /-- The OPEN parameter `CAP` in bytes, `none` for unbounded (R7); no step changes it. DESIGN CHOICE of place, unsafe:
  log entry 5. -/
  cap : Option Nat
  /-- What the host presents on the command port, next item first (R60, R61). DESIGN CHOICE, safe: log entry 1. -/
  port : List PortItem
  /-- The response of the command that completed last (R66). DESIGN CHOICE, unsafe: log entry 4. -/
  resp : Option Response
deriving DecidableEq, Repr

/-- Reasons the machine stops with a fault. The faults of R150 are no such stop: they are recorded and the block goes on
to refuse commands (R155). -/
inductive Fault where
  /-- Raised by `SNAP` when `MemRead` reaches an address that holds no value (R21, R42, U7). No run reaches it. Safe. -/
  | unwrittenRead
deriving DecidableEq, Repr

/-- Reasons the machine refuses to give what is presented a meaning. -/
inductive Refusal where
  /-- Raised by an arm of `exec` whose instruction has no meaning yet; no arm does. Safe. -/
  | notModelled (mnemonic : String)
  /-- Raised by `step` when the items on the port are no command the host may present (R180, U9, U10). Safe. -/
  | framing (e : FramingError)
deriving DecidableEq, Repr

/-- `ERR` with no fault recorded (R26, R33). -/
def Err.clear : Err := { valid := false, cause := 0#3, value := 0#32 }

/-- The state after reset (R33); `CAP` is unbounded, its default (R7), nothing has been presented and nothing answered. -/
def State.reset : State where
  mem := []
  wptr := 0
  acc := []
  cnt := 0
  final := false
  err := Err.clear
  cap := none
  port := []
  resp := none

end Sys2Proof.Machine
end

