-- ==== Sys2Proof/Machine/Flags.lean ====
section
/-! DEFINITION. The status view: the registers as `GETSTAT` returns them (spec/10_state.md R32, spec/42_control.md R131).
The block has no condition codes and no flag set by a computation (R30). -/

namespace Sys2Proof.Machine

/-- The status word: `FINAL` bit 0, `ERR.valid` bit 1, `ERR.cause` bits 4:2, bits 7:5 zero (R32, R131). -/
def State.statusWord (s : State) : Byte :=
  BitVec.ofNat 8 (s.final.toNat + 2 * s.err.valid.toNat + 4 * s.err.cause.toNat)

/-- The response data of `GETSTAT` (R131). -/
def State.statusData (s : State) : List Byte :=
  [s.statusWord] ++ be 4 s.err.value.toNat ++ beAtLeast 8 s.wptr

/-- The status code of a response (R66). -/
def Status.code : Status → Nat
  | .ok => 0
  | .fault => 1
  | .refused => 2

end Sys2Proof.Machine
end

