-- ==== Sys2Proof/Machine/Ops.lean ====
section
/-! DEFINITION. The named operations over the buffer and the registers: reading and appending (spec/20_memory.md R41,
R42), the response (spec/30_encoding.md R66), taking a fault, the fault state and reset (spec/60_exceptions.md R155 to
R162, spec/70 R180), the common prologue (spec/40_writer.md R90), and the scratch space (spec/10_state.md R23). -/

namespace Sys2Proof.Machine

/-! ## The byte buffer -/

/-- The byte at an address, `none` where the address holds no value (R21, R40). -/
def Memory.read : Memory → Nat → Option Byte
  | [], _ => none
  | (x, y) :: m, a => if a = x then some y else Memory.read m a

/-- Store one byte, keeping the addresses strictly rising. -/
def Memory.write : Memory → Nat → Byte → Memory
  | [], a, b => [(a, b)]
  | (x, y) :: m, a, b =>
    if a < x then (a, b) :: (x, y) :: m
    else if a = x then (a, b) :: m
    else (x, y) :: Memory.write m a b

/-- `MemWrite(a, n, v)`: store a byte sequence from `a` on (R13, R41). -/
def Memory.writeSeq : Memory → Nat → List Byte → Memory
  | m, _, [] => m
  | m, a, b :: bs => Memory.writeSeq (Memory.write m a b) (a + 1) bs

/-- The bytes at `a .. a+n-1`, `none` where one of them holds no value (R42). -/
def Memory.readSeq (m : Memory) : Nat → Nat → Option (List Byte)
  | _, 0 => some []
  | a, n + 1 =>
    match Memory.read m a, Memory.readSeq m (a + 1) n with
    | some b, some bs => some (b :: bs)
    | _, _ => none

/-- The canonical form: addresses strictly rising. Every listed byte counts, since an unlisted address holds no value. -/
def Memory.wf : Memory → Bool
  | [] => true
  | [_] => true
  | (a, _) :: (b, y) :: m => decide (a < b) && Memory.wf ((b, y) :: m)

/-- `MemRead(a, n)`, defined only for `a + n <= WPTR` (R42). -/
def State.memRead (s : State) (a n : Nat) : Option (List Byte) :=
  if a + n ≤ s.wptr then Memory.readSeq s.mem a n else none

/-- `WPTR + k <= CAP` (R41, R162). -/
def State.fits (s : State) (k : Nat) : Bool :=
  match s.cap with
  | none => true
  | some c => decide (s.wptr + k ≤ c)

/-- `Append(v)`, its capacity check passed (R41). -/
def State.append (s : State) (v : List Byte) : State :=
  { s with mem := Memory.writeSeq s.mem s.wptr v, wptr := s.wptr + v.length }

/-! ## The end of a command -/

/-- A command ends with `ACC = []`, `CNT = 0`, whatever its outcome (R23, R90). -/
def State.clearScratch (s : State) : State := { s with acc := [], cnt := 0 }

/-- End the command with its one response (R66, R90). -/
def State.respond (s : State) (r : Response) : State := { s.clearScratch with resp := some r }

/-- Outcome ok (R14, R66). -/
def State.ok (s : State) (data : List Byte) : State := s.respond { status := .ok, cause := 0#3, data := data }

/-! ## Faults and the fault state -/

/-- The cause code (R150). -/
def FaultCause.code : FaultCause → BitVec 3
  | .byteRange => 1#3
  | .lenRange => 2#3
  | .symbolRange => 3#3
  | .illegalCommand => 4#3
  | .overflow => 5#3

/-- The kind of a cause: `RangeError` is one kind with three causes (R150, R151). -/
def FaultCause.kind : FaultCause → FaultKind
  | .byteRange => .rangeError
  | .lenRange => .rangeError
  | .symbolRange => .rangeError
  | .illegalCommand => .illegalCommand
  | .overflow => .overflow

/-- Taking a fault (`raise`): `ERR` records cause and value, `BUF`, `WPTR` and `FINAL` stay, the scratch space is cleared
and the response names the fault (R13, R155, R159). -/
def State.takeFault (s : State) (c : FaultCause) (value : Imm) : State :=
  { s with err := { valid := true, cause := c.code, value := value } }.respond
    { status := .fault, cause := c.code, data := [] }

/-- Refusal in the fault state: nothing is written and the response carries the recorded cause (R66, R155). -/
def State.refuse (s : State) : State := s.respond { status := .refused, cause := s.err.cause, data := [] }

/-- Leaving the fault state, and starting a run: the reset event puts every piece of state at its reset value (R33, R156,
R180). `CAP` and what the host presents next are no state of the block. -/
def State.applyReset (s : State) : State := { State.reset with cap := s.cap, port := s.port }

/-- The common prologue for every command but `SNAP` and `GETSTAT`: refuse in the fault state (R90, R155). Its second
check, the legality of the word, is `State.takeIllegal`: a word that is illegal decodes to no command. -/
def State.prologue (s : State) (body : State → State) : State := if s.err.valid then s.refuse else body s

/-- An illegal command word: refused in the fault state, else `IllegalCommand` with the word's `imm` (R90, R158, R161). -/
def State.takeIllegal (s : State) (w : CmdWord) : State :=
  s.prologue fun s => s.takeFault .illegalCommand (immField w)

/-- The end of an appending command: `Append(v)` as one unit, or `Overflow` with nothing appended and the number of bytes
recorded (R41, R46, R150, R162). -/
def State.appendCommand (s : State) (v : List Byte) : State :=
  if s.fits v.length then (s.append v).ok [] else s.takeFault .overflow (BitVec.ofNat 32 v.length)

/-! ## The scratch space

The operational account of packing (R23, R76, R93). The commands use the pure function `pack`, which R23 says cannot be
told apart from it; `assemble` is there so that this is a theorem (log entry 11). -/

/-- Append one bit to `ACC`; when `CNT` reaches 8 the byte goes to the pending list and `ACC` is emptied (R93). -/
def State.pushBit (s : State) (b : Bit) : State × List Byte :=
  if s.cnt + 1 = 8 then (s.clearScratch, [byteOfBits (s.acc ++ [b])])
  else ({ s with acc := s.acc ++ [b], cnt := s.cnt + 1 }, [])

/-- At the end, a part-filled `ACC` is extended with zeros to 8 bits and goes to the pending list (R93). -/
def State.flushScratch (s : State) : State × List Byte :=
  if s.cnt = 0 then (s, []) else (s.clearScratch, [byteOfBits (s.acc ++ List.replicate (8 - s.cnt) false)])

/-- Fill the scratch space with each bit in order, then flush: the state after and the pending bytes (R93). -/
def State.assemble : List Bit → State → State × List Byte
  | [], s => s.flushScratch
  | b :: bs, s =>
    let p := s.pushBit b
    let q := State.assemble bs p.1
    (q.1, p.2 ++ q.2)

end Sys2Proof.Machine
end

