-- ==== Sys2Proof/Machine/Control.lean ====
section
/-! DEFINITION. The control and status commands (spec/42_control.md). -/

namespace Sys2Proof.Machine

/-- `SETFINAL f` (R130). -/
def execSetfinal (f : Bit) (s : State) : Host.Outcome State Fault Refusal :=
  .next (s.prologue fun s => { s with final := f }.ok [])

/-- `GETSTAT` (R131); it executes in the fault state too (R90). -/
def execGetstat (s : State) : Host.Outcome State Fault Refusal :=
  .next (s.ok s.statusData)

end Sys2Proof.Machine
end

