-- ==== Sys2Proof/Config.lean ====
section
/-! DEFINITION. The parameters of the block that have one value (spec/00_scope.md R7). The one OPEN parameter, `CAP`,
is an argument of the model and stands beside the state (Machine/State.lean, log entry 5). No value of the spec is left
open by an instruction, so there is no free value. -/

namespace Sys2Proof.Config

/-- Largest value `fixed_code` accepts (R7, R110). -/
def symMax : Nat := 287

/-- Width of `LEN` and `NLEN` (R7). -/
def lenBits : Nat := 16

/-- Largest length `emit_literal` accepts, `2^LEN_BITS - 1` (R7, R112). -/
def lenMax : Nat := 2 ^ lenBits - 1

/-- Bits of a byte (R7). -/
def byteBits : Nat := 8

/-- Largest byte value, `2^BYTE_BITS - 1` (R7, R91). -/
def byteMax : Nat := 2 ^ byteBits - 1

/-- Size of the operand of `OCPL` (R7, R95). -/
def ocBytes : Nat := 2

end Sys2Proof.Config
end

