-- ==== Sys2Proof/Machine/Huffman.lean ====
section
/-! DEFINITION. The fixed Huffman code function (spec/41_encoder.md R110, R111) and the decoding of its code words that
R117 speaks of. -/

namespace Sys2Proof.Machine

/-- A code word: the `width`-bit unsigned integer `code` (R110). -/
structure CodeWord where
  code : Nat
  width : Nat
deriving DecidableEq, Repr

/-- The document's table by rows, for a value already known to be in range (R110). -/
def fixedCodeRow (v : Nat) : CodeWord :=
  if v ≤ 143 then ⟨48 + v, 8⟩
  else if v ≤ 255 then ⟨400 + (v - 144), 9⟩
  else if v ≤ 279 then ⟨v - 256, 7⟩
  else ⟨192 + (v - 280), 8⟩

/-- `fixed_code(v)`; `none` stands for `raise RangeError(SYMBOL_RANGE, v)` (R110). -/
def fixedCode (v : Int) : Option CodeWord :=
  if v < 0 ∨ v > Config.symMax then none else some (fixedCodeRow v.toNat)

/-- The bits a code word contributes to a stream (R74). -/
def CodeWord.bits (c : CodeWord) : List Bit := bitsMsb c.code c.width

/-- Read one value from a bit sequence: the value whose code word the sequence begins with, and the bits after it (R111,
R117). -/
def readSymbol (bs : List Bit) : Option (Nat × List Bit) :=
  match (List.range (Config.symMax + 1)).find? fun v => (fixedCodeRow v).bits.isPrefixOf bs with
  | some v => some (v, bs.drop (fixedCodeRow v).width)
  | none => none

/-- Read `k` values, and the bits after them (R117). -/
def readSymbols : Nat → List Bit → Option (List Nat × List Bit)
  | 0, bs => some ([], bs)
  | k + 1, bs =>
    match readSymbol bs with
    | none => none
    | some (v, rest) =>
      match readSymbols k rest with
      | none => none
      | some (vs, rest') => some (v :: vs, rest')

end Sys2Proof.Machine
end

