-- ==== Sys2Proof/Machine/Encoder.lean ====
section
/-! DEFINITION. The DEFLATE Opcode Encoder commands (spec/41_encoder.md) and their output formats (spec/30_encoding.md
R72, R73). -/

namespace Sys2Proof.Machine

/-- Format `LITHDR`: the header byte, `LEN` and `NLEN` (R72, R112). -/
def literalBytes (final : Bit) (n : Nat) : List Byte :=
  pack (hdr final btypeStored) ++ be 2 n ++ onesComplement (be 2 n)

/-- `UNIT`, defined as the number of bytes `emit_literal` appends and not as a constant of its own (R7, R8). -/
def unit : Nat := (literalBytes false 0).length

/-- The bits of format `REPBLK` before padding: the header, then the pair of code words twice (R73, R115). Nothing else
is in the block (R78). -/
def repeatBits (final : Bit) (length distance : CodeWord) : List Bit :=
  hdr final btypeFixed ++ length.bits ++ distance.bits ++ length.bits ++ distance.bits

/-- `LIT n` (R112). -/
def execLit (n : Int) (s : State) : Host.Outcome State Fault Refusal :=
  .next (s.prologue fun s =>
    if n < 0 ∨ n > Config.lenMax then s.takeFault .lenRange (low32 n)
    else s.appendCommand (literalBytes s.final n.toNat))

/-- `REP n` (R115): the length value is `n div 2`, the distance value `n`. -/
def execRep (n : Int) (s : State) : Host.Outcome State Fault Refusal :=
  .next (s.prologue fun s =>
    match fixedCode (n / 2), fixedCode n with
    | some length, some distance => s.appendCommand (pack (repeatBits s.final length distance))
    | _, _ => s.takeFault .symbolRange (low32 n))

end Sys2Proof.Machine
end

