-- ==== Sys2Proof/Machine/Writer.lean ====
section
/-! DEFINITION. The Bit Stream Writer commands (spec/40_writer.md). -/

namespace Sys2Proof.Machine

/-- `WBYTE v` (R91). -/
def execWbyte (v : Int) (s : State) : Host.Outcome State Fault Refusal :=
  .next (s.prologue fun s =>
    if v < 0 ∨ v > Config.byteMax then s.takeFault .byteRange (low32 v)
    else s.appendCommand [BitVec.ofInt 8 v])

/-- `WBYTES data` (R92). -/
def execWbytes (data : List Byte) (s : State) : Host.Outcome State Fault Refusal :=
  .next (s.prologue fun s => s.appendCommand data)

/-- `ABF bits` (R93). -/
def execAbf (bits : List Bit) (s : State) : Host.Outcome State Fault Refusal :=
  .next (s.prologue fun s => s.appendCommand (pack bits))

/-- `OCPL x` (R95). -/
def execOcpl (x0 x1 : Byte) (s : State) : Host.Outcome State Fault Refusal :=
  .next (s.prologue fun s => s.ok (onesComplement [x0, x1]))

/-- `SNAP` (R96); it executes in the fault state too (R90). -/
def execSnap (s : State) : Host.Outcome State Fault Refusal :=
  match s.memRead 0 s.wptr with
  | some data => .next (s.ok data)
  | none => .fault .unwrittenRead

end Sys2Proof.Machine
end

