-- ==== Sys2Proof/Machine/Dispatch.lean ====
section
/-! DEFINITION. One arm per command (spec/30_encoding.md R62). -/

namespace Sys2Proof.Machine

def exec (i : Instr) (s : State) : Host.Outcome State Fault Refusal :=
  match i with
  | .wbyte v => Sys2Proof.Machine.execWbyte v s
  | .wbytes data => Sys2Proof.Machine.execWbytes data s
  | .abf bits => Sys2Proof.Machine.execAbf bits s
  | .ocpl x0 x1 => Sys2Proof.Machine.execOcpl x0 x1 s
  | .snap => Sys2Proof.Machine.execSnap s
  | .lit n => Sys2Proof.Machine.execLit n s
  | .rep n => Sys2Proof.Machine.execRep n s
  | .setfinal f => Sys2Proof.Machine.execSetfinal f s
  | .getstat => Sys2Proof.Machine.execGetstat s

end Sys2Proof.Machine
end

