-- ==== Sys2Proof/Machine/Step.lean ====
section
/-! DEFINITION. One step: the block takes what the host presents next on the command port and performs it completely
(spec/00_scope.md R9, R14; spec/70 R180). -/

namespace Sys2Proof.Machine

/-- One step. With nothing presented the state is retained unchanged (R168); a legal command is consumed with all its
beats, whatever its outcome, and performed (R61); an illegal word takes `IllegalCommand` (R161); the reset event resets
(R180). -/
def step (s : State) : Host.Outcome State Fault Refusal :=
  match decode s.port with
  | .idle => .next s
  | .reset rest => .next { s with port := rest }.applyReset
  | .command i rest => exec i { s with port := rest }
  | .illegal w rest => .next ({ s with port := rest }.takeIllegal w)
  | .malformed e => .refused (.framing e)

/-- The state with the instruction of those bits placed where the next step takes it: at the front of the port. -/
def State.withFetchWord (s : State) (nbits w : Nat) : State := { s with port := tableItems nbits w ++ s.port }

end Sys2Proof.Machine
end

