-- ==== Sys2Proof/Safety.lean ====
section
/-! DEFINITION. What counts as a good state and a good run, in the terms the statements use. -/

namespace Sys2Proof.Machine

/-- A response as R66 describes it: cause 0 when ok, else one of the causes 1 to 5 and no data. -/
def Response.wellFormed (r : Response) : Bool :=
  match r.status with
  | .ok => r.cause == 0#3
  | .fault => decide (1 ≤ r.cause.toNat) && decide (r.cause.toNat ≤ 5) && r.data.isEmpty
  | .refused => decide (1 ≤ r.cause.toNat) && decide (r.cause.toNat ≤ 5) && r.data.isEmpty

/-- The invariant of the machine at a command boundary. -/
structure State.Inv (s : State) : Prop where
  /-- `BUF` holds a value at each of the addresses `0 .. WPTR-1` and nowhere else (R21, R22, R49). -/
  buffer : s.mem.map Prod.fst = List.range s.wptr
  /-- The scratch space is empty (R23, R24). -/
  scratch : s.acc = [] ∧ s.cnt = 0
  /-- No fault recorded: cause and value are 0 (R26). -/
  clear : s.err.valid = false → s.err.cause = 0#3 ∧ s.err.value = 0#32
  /-- A recorded cause is one of 1 to 5 (R32, R150). -/
  cause : s.err.valid = true → 1 ≤ s.err.cause.toNat ∧ s.err.cause.toNat ≤ 5
  /-- `WPTR` is within `CAP` (R20, R41). -/
  capacity : s.fits 0 = true
  /-- The last response is one R66 describes, and reports `FAULT` or `REFUSED` only with that fault recorded (R155). -/
  response : ∀ r, s.resp = some r →
    r.wellFormed = true ∧ (r.status ≠ .ok → s.err.valid = true ∧ s.err.cause = r.cause)

/-- The content of `BUF`, in address order (R21). -/
def State.contents (s : State) : List Byte := s.mem.map Prod.snd

/-- The result of a run that ends here: what `SNAP` returns, provided no fault was recorded (R10, R156, U14). -/
def State.result (s : State) : Option (List Byte) := if s.err.valid then none else s.memRead 0 s.wptr

/-! ## What a command did, from the state before it and the state after it -/

/-- `BUF` and `WPTR` are as before; the scratch space is empty at the end of the command (R23). -/
structure State.Unwritten (s t : State) : Prop where
  mem : t.mem = s.mem
  bytes : ∀ a, Memory.read t.mem a = Memory.read s.mem a
  wptr : t.wptr = s.wptr
  scratch : t.acc = [] ∧ t.cnt = 0
  cap : t.cap = s.cap
  port : t.port = s.port

/-- The command completed ok with `v` appended: stored from `WPTR` on, every other byte and every other register as
before (R14, R41, R66). -/
structure State.Appended (s t : State) (v : List Byte) : Prop where
  stored : ∀ i b, v[i]? = some b → Memory.read t.mem (s.wptr + i) = some b
  kept : ∀ a, a < s.wptr ∨ s.wptr + v.length ≤ a → Memory.read t.mem a = Memory.read s.mem a
  wptr : t.wptr = s.wptr + v.length
  final : t.final = s.final
  err : t.err = s.err
  scratch : t.acc = [] ∧ t.cnt = 0
  resp : t.resp = some { status := .ok, cause := 0#3, data := [] }
  cap : t.cap = s.cap
  port : t.port = s.port

/-- The command completed ok, wrote no state and answered `data` (R14, R66). -/
structure State.Answered (s t : State) (data : List Byte) : Prop where
  unwritten : s.Unwritten t
  final : t.final = s.final
  err : t.err = s.err
  resp : t.resp = some { status := .ok, cause := 0#3, data := data }

/-- The command faulted: nothing written but `ERR` (R153, R159, R66). -/
structure State.Faulted (s t : State) (cause : BitVec 3) (value : Imm) : Prop where
  unwritten : s.Unwritten t
  final : t.final = s.final
  err : t.err = { valid := true, cause := cause, value := value }
  resp : t.resp = some { status := .fault, cause := cause, data := [] }

/-- The command was refused: nothing written, `ERR` not touched, the recorded cause in the response (R155, R66). -/
structure State.Refused (s t : State) : Prop where
  unwritten : s.Unwritten t
  final : t.final = s.final
  err : t.err = s.err
  resp : t.resp = some { status := .refused, cause := s.err.cause, data := [] }

end Sys2Proof.Machine

namespace Sys2Proof

open Machine

/-- The rows of spec/opcode_table.json: match value and mask of each opcode, letter for letter. -/
def Op.tableRow : Op → CmdWord × CmdWord
  | .wbyte => (0x0100000000#40, 0xFF00000000#40)
  | .wbytes => (0x0200000000#40, 0xFF00000000#40)
  | .abf => (0x0300000000#40, 0xFF00000000#40)
  | .ocpl => (0x0400000000#40, 0xFFFFFF0000#40)
  | .snap => (0x0500000000#40, 0xFFFFFFFFFF#40)
  | .lit => (0x1000000000#40, 0xFF00000000#40)
  | .rep => (0x1100000000#40, 0xFF00000000#40)
  | .setfinal => (0x2000000000#40, 0xFFFFFFFFFE#40)
  | .getstat => (0x2100000000#40, 0xFFFFFFFFFF#40)

/-- The word matches the opcode's row of spec/opcode_table.json. -/
def Op.rowMatches (o : Op) (w : CmdWord) : Prop := w &&& o.tableRow.2 = o.tableRow.1

/-- The bytes a command appends when it completes ok, by the value `FINAL` has (R47). -/
def Instr.output (final : Bit) : Instr → List Byte
  | .wbyte v => [BitVec.ofInt 8 v]
  | .wbytes data => data
  | .abf bits => pack bits
  | .ocpl _ _ => []
  | .snap => []
  | .lit n => literalBytes final n.toNat
  | .rep n => pack (repeatBits final (fixedCodeRow (n / 2).toNat) (fixedCodeRow n.toNat))
  | .setfinal _ => []
  | .getstat => []

/-- The operand is in the range the command accepts (R63). -/
def Instr.accepted : Instr → Bool
  | .wbyte v => decide (0 ≤ v) && decide (v ≤ 255)
  | .wbytes _ => true
  | .abf _ => true
  | .ocpl _ _ => true
  | .snap => true
  | .lit n => decide (0 ≤ n) && decide (n ≤ 65535)
  | .rep n => decide (0 ≤ n) && decide (n ≤ 287)
  | .setfinal _ => true
  | .getstat => true

/-- The five commands that append (R47). -/
def Instr.appends : Instr → Bool
  | .wbyte _ => true
  | .wbytes _ => true
  | .abf _ => true
  | .lit _ => true
  | .rep _ => true
  | .ocpl _ _ => false
  | .snap => false
  | .setfinal _ => false
  | .getstat => false

/-- The two commands that execute in the fault state (R90). -/
def Instr.readsOnly : Instr → Bool
  | .snap => true
  | .getstat => true
  | .wbyte _ => false
  | .wbytes _ => false
  | .abf _ => false
  | .ocpl _ _ => false
  | .lit _ => false
  | .rep _ => false
  | .setfinal _ => false

end Sys2Proof
end

