-- ==== Sys2Proof/Certificates/Slice0/Obligations.lean ====
section
/-! DEFINITION. The statements for the provers, in the order of the spec's files. `Appended`, `Answered`, `Faulted`,
`Refused` and `Unwritten` (Safety.lean) say what a command did to every register and every byte. -/

open Sys2Proof Sys2Proof.Machine

/-! ## State, reset and the invariant -/

/-- R33: the state after reset. R33 is the spec's decision D9, its `FINAL = 0` the decision D8 and its clear `ERR` the
decision D10. -/
def Obligations.ResetLeavesTheStatedValues : Prop :=
  (∀ a, Memory.read State.reset.mem a = none) ∧ State.reset.wptr = 0 ∧ State.reset.acc = [] ∧ State.reset.cnt = 0 ∧
    State.reset.final = false ∧ State.reset.err = { valid := false, cause := 0#3, value := 0#32 }

/-- The invariant holds at reset; its clauses about `cap` and `resp` are the model's (log entries 4, 5). -/
def Obligations.ResetMeetsInvariant : Prop := State.reset.Inv

/-- R21 to R26, R41, R150, R155: every step keeps the invariant, from every state that meets it. `ERR` and the
response are the spec's decisions D10 and D19; `resp`, `cap` and `port` are the model's fields (log entries 1, 4, 5). -/
def Obligations.StepKeepsInvariant : Prop := ∀ s t : State, s.Inv → step s = .next t → t.Inv

/-- Memory keeps its canonical form in every step from every state that has it. The canonical form is the model's
representation of `BUF`. -/
def Obligations.StepKeepsMemoryCanonical : Prop :=
  ∀ s t : State, Memory.wf s.mem = true → step s = .next t → Memory.wf t.mem = true

/-- R23: no command reads the scratch space that an earlier one left. The model computes the bytes with `pack` (log
entry 11). -/
def Obligations.ScratchLeftBehindIsNotRead : Prop :=
  ∀ (i : Instr) (s : State) (bits : List Bit) (k : Nat), exec i { s with acc := bits, cnt := k } = exec i s

/-- R25, R30: only `SETFINAL` and reset write `FINAL`. That the flag is a register is the spec's decision D8. -/
def Obligations.FinalIsWrittenOnlyBySetfinal : Prop :=
  (∀ (i : Instr) (s t : State), (∀ f, i ≠ .setfinal f) → exec i s = .next t → t.final = s.final) ∧
  ∀ s t : State, (∀ f rest, decode s.port ≠ .command (.setfinal f) rest) → (∀ rest, s.port ≠ .reset :: rest) →
    step s = .next t → t.final = s.final

/-- R130: the flag has no effect on `WBYTE`, `WBYTES`, `ABF`, `OCPL` or `SNAP`: from states that differ in `FINAL`
alone they reach states that differ in `FINAL` alone. R130 stands on the spec's decision D8. -/
def Obligations.FinalDoesNotReachWriterCommands : Prop :=
  ∀ (i : Instr) (s t : State) (f : Bit),
    ((∃ v, i = .wbyte v) ∨ (∃ d, i = .wbytes d) ∨ (∃ b, i = .abf b) ∨ (∃ x0 x1, i = .ocpl x0 x1) ∨ i = .snap) →
    exec i s = .next t → exec i { s with final := f } = .next { t with final := f }

/-- R31: `CAP` is a parameter: no step changes it. No command takes items from the port either; the step does. Both are
the model's fields (log entries 1, 5). -/
def Obligations.NoStepChangesCapacity : Prop :=
  (∀ s t : State, step s = .next t → t.cap = s.cap) ∧
  ∀ (i : Instr) (s t : State), exec i s = .next t → t.cap = s.cap ∧ t.port = s.port

/-! ## The buffer -/

/-- R21, R22: no step but the reset event changes or removes a byte once written, and `WPTR` never decreases. -/
def Obligations.BufferIsAppendOnly : Prop :=
  ∀ s t : State, s.Inv → (∀ rest, s.port ≠ .reset :: rest) → step s = .next t →
    s.contents <+: t.contents ∧ s.wptr ≤ t.wptr ∧ ∀ a b, Memory.read s.mem a = some b → Memory.read t.mem a = some b

/-- R51, R98: a command that completes ok appends exactly its output, after everything already there; any other
outcome leaves the buffer as it was. The output of `ABF`, `LIT` and `REP` rests on D5, D6, D7 (log entries 7, 8, 9). -/
def Obligations.BufferGrowsByTheOutputOfOkCommands : Prop :=
  ∀ (i : Instr) (s t : State) (r : Response), s.Inv → exec i s = .next t → t.resp = some r →
    (r.status = .ok → t.contents = s.contents ++ i.output s.final) ∧ (r.status ≠ .ok → t.contents = s.contents)

/-- R47, R79: the number of bytes each command appends when ok. -/
def Obligations.OkCommandsAppendTheStatedSizes : Prop :=
  ∀ (i : Instr) (s t : State) (data : List Byte),
    exec i s = .next t → t.resp = some { status := .ok, cause := 0#3, data := data } →
    t.wptr = s.wptr +
      match i with
      | .wbyte _ => 1
      | .wbytes d => d.length
      | .abf bits => (bits.length + 7) / 8
      | .lit _ => 5
      | .rep _ => 5
      | .ocpl _ _ => 0
      | .snap => 0
      | .setfinal _ => 0
      | .getstat => 0

/-- R42: `SNAP` stops, and stops only, where an address below `WPTR` holds no value (log entry 12); no state that meets
the invariant is one. -/
def Obligations.SnapStopsOnlyAtAnUnwrittenByte : Prop :=
  ∀ s : State, (exec .snap s = .fault .unwrittenRead ↔ ∃ a, a < s.wptr ∧ Memory.read s.mem a = none) ∧
    (s.Inv → ∀ a, a < s.wptr → Memory.read s.mem a ≠ none)

/-! ## Encoding -/

/-- R60 to R63, R65: decoding the encoding of a well-formed command gives it back, every operand at every value, and
leaves what follows it. The encoding is the spec's decisions D2, D3, D4. -/
def Obligations.DecodeInvertsEncode : Prop :=
  ∀ (i : Instr) (rest : List PortItem), i.wellFormed = true → decode (encode i ++ rest) = .command i rest

/-- R60 to R63, R65: what decodes to a command is that command's encoding, so a command has one spelling. The encoding
is the spec's decisions D2, D3, D4. -/
def Obligations.DecodedCommandStoodEncoded : Prop :=
  ∀ (ps : List PortItem) (i : Instr) (rest : List PortItem), decode ps = .command i rest →
    i.wellFormed = true ∧ ps = encode i ++ rest

/-- R62, R64 and spec/opcode_table.json: a word is legal exactly when it matches a row of the table, and it matches
one row at most. The encoding is the spec's decisions D2, D3, D13. -/
def Obligations.LegalWordsAreTheTableRows : Prop :=
  (∀ (w : CmdWord) (o : Op), wordOp w = some o ↔ o.rowMatches w) ∧
  ∀ (w : CmdWord) (o o' : Op), o.rowMatches w → o'.rowMatches w → o = o'

/-- Words of spec/95_test_vectors.md, one or more for each command, and two illegal ones. -/
def Obligations.WordsOfTheTestVectorsDecode : Prop :=
  decode [.word 0x01FFFFFFFF#40] = .command (.wbyte (-1)) [] ∧
  decode [.word 0x0200000003#40, .p8 0x61#8, .p8 0x62#8, .p8 0x63#8] = .command (.wbytes [0x61#8, 0x62#8, 0x63#8]) [] ∧
  decode [.word 0x0300000003#40, .p1 true, .p1 false, .p1 false] = .command (.abf [true, false, false]) [] ∧
  decode [.word 0x0400001234#40] = .command (.ocpl 0x12#8 0x34#8) [] ∧
  decode [.word 0x0500000000#40] = .command .snap [] ∧
  decode [.word 0x1000010000#40] = .command (.lit 65536) [] ∧
  decode [.word 0x110000011F#40] = .command (.rep 287) [] ∧
  decode [.word 0x2000000001#40] = .command (.setfinal true) [] ∧
  decode [.word 0x2100000000#40] = .command .getstat [] ∧
  decode [.word 0x0400010005#40] = .illegal 0x0400010005#40 [] ∧
  decode [.word 0xFF12345678#40] = .illegal 0xFF12345678#40 []

/-- A step performs the command that stands decoded at the front of the port, and takes its items off. The port is the
model's field (log entry 1). -/
def Obligations.StepRunsTheDecodedCommand : Prop :=
  ∀ (s : State) (i : Instr) (rest : List PortItem), decode s.port = .command i rest → i.wellFormed = true →
    step s = exec i { s with port := rest }

/-- R61: the block consumes exactly the beats the word announces, whatever the outcome, so that the next item is again
a command word. The port is the model's field (log entry 1). -/
def Obligations.CommandIsConsumedWithItsBeats : Prop :=
  ∀ (s t : State) (i : Instr) (rest : List PortItem), i.wellFormed = true → s.port = encode i ++ rest →
    step s = exec i { s with port := rest } ∧ (step s = .next t → t.port = rest)

/-- The host's placing of an instruction by its bits: what the decoder reads from them is what the next step performs (the
model's layout, log entry 13). -/
def Obligations.PlacedInstructionIsTheNextStep : Prop :=
  ∀ (s : State) (nbits w : Nat) (i : Instr), decodeTableWord nbits w = some i →
    step (s.withFetchWord nbits w) = exec i s

/-- R64, R161: an illegal word raises `IllegalCommand`: nothing is appended, cause 4, the word's `imm` recorded. R64
and R161 are the spec's decision D13. -/
def Obligations.IllegalWordRaisesIllegalCommand : Prop :=
  ∀ (s : State) (w : CmdWord) (rest : List PortItem), s.port = .word w :: rest → (∀ o : Op, ¬ o.rowMatches w) →
    s.err.valid = false →
    ∃ t, step s = .next t ∧ State.Faulted { s with port := rest } t 4#3 (w.setWidth 32)

/-- R61, R180, U9, U10: beats that do not match the word, and a reset inside a command, are given no meaning: the model
refuses them by name (log entry 3). -/
def Obligations.WrongFramingIsRefused : Prop :=
  (∀ (s : State) (b : Byte) (rest : List PortItem), s.port = .p8 b :: rest →
    step s = .refused (.framing .wordExpected)) ∧
  (∀ (s : State) (b : Bit) (rest : List PortItem), s.port = .p1 b :: rest →
    step s = .refused (.framing .wordExpected)) ∧
  (∀ (s : State) (w : CmdWord) (data : List Byte), s.port = .word w :: data.map .p8 → Op.rowMatches .wbytes w →
    data.length < (immField w).toNat → step s = .refused (.framing .beatMissing)) ∧
  (∀ (s : State) (w : CmdWord) (data : List Byte) (rest : List PortItem),
    s.port = .word w :: (data.map .p8 ++ .reset :: rest) → Op.rowMatches .wbytes w →
    data.length < (immField w).toNat → step s = .refused (.framing .resetInCommand)) ∧
  (∀ (s : State) (w w' : CmdWord) (data : List Byte) (rest : List PortItem),
    s.port = .word w :: (data.map .p8 ++ .word w' :: rest) → Op.rowMatches .wbytes w →
    data.length < (immField w).toNat → step s = .refused (.framing .beatOfWrongKind)) ∧
  (∀ (s : State) (w : CmdWord) (data : List Byte) (b : Bit) (rest : List PortItem),
    s.port = .word w :: (data.map .p8 ++ .p1 b :: rest) → Op.rowMatches .wbytes w →
    data.length < (immField w).toNat → step s = .refused (.framing .beatOfWrongKind)) ∧
  (∀ (s : State) (w : CmdWord) (bits : List Bit), s.port = .word w :: bits.map .p1 → Op.rowMatches .abf w →
    bits.length < (immField w).toNat → step s = .refused (.framing .beatMissing)) ∧
  (∀ (s : State) (w : CmdWord) (bits : List Bit) (rest : List PortItem),
    s.port = .word w :: (bits.map .p1 ++ .reset :: rest) → Op.rowMatches .abf w →
    bits.length < (immField w).toNat → step s = .refused (.framing .resetInCommand)) ∧
  (∀ (s : State) (w w' : CmdWord) (bits : List Bit) (rest : List PortItem),
    s.port = .word w :: (bits.map .p1 ++ .word w' :: rest) → Op.rowMatches .abf w →
    bits.length < (immField w).toNat → step s = .refused (.framing .beatOfWrongKind)) ∧
  ∀ (s : State) (w : CmdWord) (bits : List Bit) (b : Byte) (rest : List PortItem),
    s.port = .word w :: (bits.map .p1 ++ .p8 b :: rest) → Op.rowMatches .abf w →
    bits.length < (immField w).toNat → step s = .refused (.framing .beatOfWrongKind)

/-! ## Output formats -/

/-- R75: the padding of a bit sequence. -/
def Obligations.PaddingIsMinimal : Prop :=
  ∀ bs : List Bit,
    8 * (pack bs).length = bs.length + padLength bs.length ∧
    padLength bs.length = (8 - bs.length % 8) % 8 ∧ padLength bs.length ≤ 7 ∧
    (padLength bs.length = 0 ↔ bs.length % 8 = 0) ∧
    ∀ (b : Byte) (k : Nat), (pack bs).getLast? = some b → 8 - padLength bs.length ≤ k → b.getLsbD k = false

/-- R76: element `8j + i` of the padded sequence is bit `i` of byte `j`, and filling the scratch registers bit by bit
gives the same bytes and leaves them empty. Rests on D5 (log entry 7). -/
def Obligations.PackPlacesEachBitAsTheScratchDoes : Prop :=
  pack [] = [] ∧
  ∀ bs : List Bit,
    (pack bs).length = (bs.length + 7) / 8 ∧
    (∀ (j i : Nat) (b : Byte), (pack bs)[j]? = some b → i < 8 → b.getLsbD i = (bs[8 * j + i]?).getD false) ∧
    ∀ s : State, s.acc = [] → s.cnt = 0 → State.assemble bs s = (s, pack bs)

/-- R23, R93: while bits are pushed the scratch space holds `CNT` bits, at most 7. -/
def Obligations.ScratchHoldsAtMostSevenBits : Prop :=
  ∀ (s : State) (b : Bit), s.acc.length = s.cnt → s.cnt ≤ 7 →
    (s.pushBit b).1.acc.length = (s.pushBit b).1.cnt ∧ (s.pushBit b).1.cnt ≤ 7 ∧
    ((s.pushBit b).2 ≠ [] ↔ s.cnt = 7)

/-- R44, R117: `unpack` is the inverse of `pack`, up to the padding. Rests on D5 (log entry 7). -/
def Obligations.UnpackInvertsPack : Prop :=
  (∀ bs : List Bit, unpack (pack bs) = bs ++ List.replicate (padLength bs.length) false) ∧
  ∀ v : List Byte, pack (unpack v) = v

/-- R13: `be_N` and `from_be` are inverse, and `be_2(v) = [v div 256, v mod 256]`. -/
def Obligations.BigEndianBytesRoundTrip : Prop :=
  (∀ n v : Nat, v < 256 ^ n → (be n v).length = n ∧ fromBe (be n v) = v) ∧
  (∀ v : List Byte, fromBe v < 256 ^ v.length ∧ be v.length (fromBe v) = v) ∧
  ∀ v : Nat, v < 256 ^ 2 → be 2 v = [BitVec.ofNat 8 (v / 256), BitVec.ofNat 8 (v % 256)]

/-- R94: the ones' complement, its definition over the big-endian integer and the consequences (a) to (e). -/
def Obligations.OnesComplementIsBytewiseAndInvolutive : Prop :=
  onesComplement [] = [] ∧
  (∀ v : List Byte, fromBe (onesComplement v) = fromBe v ^^^ (2 ^ (8 * v.length) - 1) ∧
    (onesComplement v).length = v.length ∧ onesComplement (onesComplement v) = v ∧
    ∀ (k : Nat) (b : Byte), v[k]? = some b → (onesComplement v)[k]? = some (255#8 - b)) ∧
  ∀ v : List Byte, v.length = 2 →
    fromBe v ^^^ fromBe (onesComplement v) = 0xFFFF ∧ fromBe v + fromBe (onesComplement v) = 65535

/-- R191: the two orders of the length bytes agree only where the two bytes are equal. -/
def Obligations.LengthReadsTheSameOnlyForEqualBytes : Prop :=
  ∀ n : Nat, n ≤ 65535 →
    (fromBe (be 2 n).reverse = n ↔ n / 256 = n % 256) ∧ (n / 256 = n % 256 ↔ ∃ b, b ≤ 255 ∧ n = 0x0101 * b)

/-! ## The writer commands -/

/-- R91: `WBYTE v`. What a fault records and answers, and that `Overflow` exists, are the spec's decisions D10, D11, D14
(R150, R159, R162). -/
def Obligations.WbyteAppendsAByteOrFaults : Prop :=
  ∀ (v : Int) (s : State), s.err.valid = false →
    (0 ≤ v → v ≤ 255 → s.fits 1 = true →
      ∃ (t : State) (b : Byte), exec (.wbyte v) s = .next t ∧ (b.toNat : Int) = v ∧ s.Appended t [b]) ∧
    (v < 0 ∨ 255 < v → ∃ t, exec (.wbyte v) s = .next t ∧ s.Faulted t 1#3 (BitVec.ofInt 32 v)) ∧
    (0 ≤ v → v ≤ 255 → s.fits 1 = false → ∃ t, exec (.wbyte v) s = .next t ∧ s.Faulted t 5#3 1#32)

/-- R92: `WBYTES data` appends the bytes verbatim; one byte is the same as `WBYTE`. What a fault records and answers, and
that `Overflow` exists, are the spec's decisions D10, D11, D14 (R150, R159, R162). -/
def Obligations.WbytesAppendsVerbatim : Prop :=
  (∀ (data : List Byte) (s : State), s.err.valid = false →
    (s.fits data.length = true → ∃ t, exec (.wbytes data) s = .next t ∧ s.Appended t data) ∧
    (s.fits data.length = false →
      ∃ t, exec (.wbytes data) s = .next t ∧ s.Faulted t 5#3 (BitVec.ofNat 32 data.length))) ∧
  ∀ (b : Byte) (s : State), exec (.wbytes [b]) s = exec (.wbyte b.toNat) s

/-- R93: `ABF bits` appends the packed bits, `ceil(nb/8)` bytes, each call for itself. The place of a bit in its byte
rests on D5 (log entry 7). -/
def Obligations.AbfAppendsThePackedBits : Prop :=
  ∀ (bits : List Bit) (s : State), s.err.valid = false →
    (s.fits ((bits.length + 7) / 8) = true → ∃ t v, exec (.abf bits) s = .next t ∧ s.Appended t v ∧
      v.length = (bits.length + 7) / 8 ∧ unpack v = bits ++ List.replicate ((8 - bits.length % 8) % 8) false) ∧
    (s.fits ((bits.length + 7) / 8) = false →
      ∃ t, exec (.abf bits) s = .next t ∧ s.Faulted t 5#3 (BitVec.ofNat 32 ((bits.length + 7) / 8)))

/-- R95: `OCPL x` answers the complement of each byte, and `OCPL` of the answer answers `x`. The command is the spec's
decision D15. -/
def Obligations.OcplAnswersTheComplement : Prop :=
  ∀ (x0 x1 : Byte) (s : State), s.err.valid = false →
    ∃ t, exec (.ocpl x0 x1) s = .next t ∧ s.Answered t [255#8 - x0, 255#8 - x1]

/-- R96: `SNAP` answers the `WPTR` bytes of the buffer, also in the fault state, and writes nothing. That it runs in
the fault state is the spec's decision D16. -/
def Obligations.SnapAnswersTheBuffer : Prop :=
  ∀ s : State, s.Inv → ∃ t data, exec .snap s = .next t ∧ s.Answered t data ∧ data = s.contents ∧
    data.length = s.wptr ∧ ∀ a, a < s.wptr → data[a]? = Memory.read s.mem a

/-- R48: `SNAP` and `GETSTAT` have no side effect: asked again they give the same answer, and nothing but the answer has
changed. -/
def Obligations.ReadsHaveNoSideEffect : Prop :=
  ∀ s t : State, s.acc = [] → s.cnt = 0 →
    (exec .snap s = .next t → { t with resp := s.resp } = s ∧ exec .snap t = .next t) ∧
    (exec .getstat s = .next t → { t with resp := s.resp } = s ∧ exec .getstat t = .next t)

/-! ## The encoder commands -/

/-- R110: the fixed Huffman table, row by row; a value outside it is a contract violation, which the command that looks it
up, `REP` (R115), reports as `SYMBOL_RANGE`. The cause code and the record in `ERR` are the spec's decisions D11 and D10
(R150, R159). -/
def Obligations.FixedCodeIsTheTable : Prop :=
  ∀ v : Int,
    (v < 0 ∨ 287 < v → fixedCode v = none) ∧
    (0 ≤ v → v ≤ 143 → fixedCode v = some ⟨0b00110000 + v.toNat, 8⟩) ∧
    (144 ≤ v → v ≤ 255 → fixedCode v = some ⟨0b110010000 + (v - 144).toNat, 9⟩) ∧
    (256 ≤ v → v ≤ 279 → fixedCode v = some ⟨0b0000000 + (v - 256).toNat, 7⟩) ∧
    (280 ≤ v → v ≤ 287 → fixedCode v = some ⟨0b11000000 + (v - 280).toNat, 8⟩) ∧
    ∀ s : State, s.err.valid = false → fixedCode v = none →
      ∃ t, exec (.rep v) s = .next t ∧ s.Faulted t 3#3 (BitVec.ofInt 32 v)

/-- R111: the table is total on `0..287`, each code fits its width, and no code word is a prefix of another, so a
value is read back from its code word whatever follows. The order of the bits of a code word rests on D7 (log entry
9). -/
def Obligations.FixedCodeIsTotalAndPrefixFree : Prop :=
  (∀ v : Int, (∃ c, fixedCode v = some c) ↔ 0 ≤ v ∧ v ≤ 287) ∧
  (∀ (v : Int) (c : CodeWord), fixedCode v = some c → c.code < 2 ^ c.width ∧ c.bits.length = c.width) ∧
  (∀ (u v : Int) (c d : CodeWord), fixedCode u = some c → fixedCode v = some d → c.bits <+: d.bits → u = v) ∧
  ∀ (v : Nat) (c : CodeWord) (rest : List Bit), fixedCode v = some c → readSymbol (c.bits ++ rest) = some (v, rest)

/-- R72, R112: `LIT n` appends the five bytes of format `LITHDR`, or faults with nothing appended. That a negative `n`
faults is the spec's decision D12. -/
def Obligations.LitAppendsTheHeaderOrFaults : Prop :=
  ∀ (n : Int) (s : State), s.err.valid = false →
    (0 ≤ n → n ≤ 65535 → s.fits 5 = true → ∃ t, exec (.lit n) s = .next t ∧
      s.Appended t [BitVec.ofNat 8 s.final.toNat, BitVec.ofNat 8 (n.toNat / 256), BitVec.ofNat 8 (n.toNat % 256),
        BitVec.ofNat 8 (255 - n.toNat / 256), BitVec.ofNat 8 (255 - n.toNat % 256)]) ∧
    (n < 0 ∨ 65535 < n → ∃ t, exec (.lit n) s = .next t ∧ s.Faulted t 2#3 (BitVec.ofInt 32 n)) ∧
    (0 ≤ n → n ≤ 65535 → s.fits 5 = false → ∃ t, exec (.lit n) s = .next t ∧ s.Faulted t 5#3 5#32)

/-- R113: the literal round trip. -/
def Obligations.LiteralHeaderReadsBack : Prop :=
  ∀ (n : Int) (s t : State), 0 ≤ n → n ≤ 65535 → exec (.lit n) s = .next t →
    t.resp = some { status := .ok, cause := 0#3, data := [] } →
    Memory.read t.mem s.wptr = some (BitVec.ofNat 8 s.final.toNat) ∧
    ∃ len nlen, t.memRead (s.wptr + 1) 2 = some len ∧ t.memRead (s.wptr + 3) 2 = some nlen ∧
      (fromBe len : Int) = n ∧ (fromBe nlen : Int) = 65535 - n ∧ fromBe len ^^^ fromBe nlen = 65535

/-- R73, R115: `REP n` appends the header `[FINAL, 1, 0]`, the code words of `n div 2` and `n` twice, and the padding;
or faults with nothing appended. Rests on D5, D6, D7 (log entries 7, 8, 9). -/
def Obligations.RepAppendsTheBlockOrFaults : Prop :=
  ∀ (n : Int) (s : State), s.err.valid = false →
    (0 ≤ n → n ≤ 287 → s.fits 5 = true → ∃ t v lc dc, exec (.rep n) s = .next t ∧ s.Appended t v ∧ v.length = 5 ∧
      fixedCode (n / 2) = some lc ∧ fixedCode n = some dc ∧
      unpack v = [s.final, true, false] ++ bitsMsb lc.code lc.width ++ bitsMsb dc.code dc.width ++
        bitsMsb lc.code lc.width ++ bitsMsb dc.code dc.width ++
        List.replicate (if 144 ≤ n ∧ n ≤ 255 then 3 else if 256 ≤ n ∧ n ≤ 279 then 7 else 5) false) ∧
    (n < 0 ∨ 287 < n → ∃ t, exec (.rep n) s = .next t ∧ s.Faulted t 3#3 (BitVec.ofInt 32 n)) ∧
    (0 ≤ n → n ≤ 287 → s.fits 5 = false → ∃ t, exec (.rep n) s = .next t ∧ s.Faulted t 5#3 5#32)

/-- R116: `REP n` completes ok exactly for `0..287`, with 35, 37 or 33 bits before padding and 5 bytes in every case. -/
def Obligations.RepAcceptsExactlyTheTableRange : Prop :=
  ∀ (n : Int) (s : State), s.err.valid = false → s.fits 5 = true →
    ((∃ t r, exec (.rep n) s = .next t ∧ t.resp = some r ∧ r.status = .ok) ↔ 0 ≤ n ∧ n ≤ 287) ∧
    (0 ≤ n → n ≤ 287 → ∃ t, exec (.rep n) s = .next t ∧ t.wptr = s.wptr + 5) ∧
    ∀ lc dc, fixedCode (n / 2) = some lc → fixedCode n = some dc →
      lc.width = 8 ∧
      (repeatBits s.final lc dc).length = 3 + 2 * (8 + dc.width) ∧
      (repeatBits s.final lc dc).length =
        (if 144 ≤ n ∧ n ≤ 255 then 37 else if 256 ≤ n ∧ n ≤ 279 then 33 else 35)

/-- R117: the block that `REP n` appends, unpacked and read after the three header bits, is two identical pairs
`n div 2, n` and zero bits. Rests on D5, D6, D7 (log entries 7, 8, 9). -/
def Obligations.RepBlockReadsAsTwoIdenticalPairs : Prop :=
  ∀ (n : Nat) (s t : State), exec (.rep n) s = .next t →
    t.resp = some { status := .ok, cause := 0#3, data := [] } →
    ∃ v, t.memRead s.wptr 5 = some v ∧
      readSymbols 4 ((unpack v).drop 3) = some ([n / 2, n, n / 2, n],
        List.replicate (if 144 ≤ n ∧ n ≤ 255 then 3 else if 256 ≤ n ∧ n ≤ 279 then 7 else 5) false)

/-- R25, R70, R71: `LIT` and `REP` copy `FINAL` into the first bit of the block they emit, follow it with `BTYPE` 00 or 01,
and leave the flag alone. The `BTYPE` order rests on D6 (log entry 8). -/
def Obligations.EncoderCopiesFinalIntoTheHeader : Prop :=
  ∀ (n : Int) (s t : State),
    (exec (.lit n) s = .next t → t.resp = some { status := .ok, cause := 0#3, data := [] } →
      t.final = s.final ∧ ∃ b, Memory.read t.mem s.wptr = some b ∧ b.toNat = s.final.toNat) ∧
    (exec (.rep n) s = .next t → t.resp = some { status := .ok, cause := 0#3, data := [] } →
      t.final = s.final ∧ ∃ b, Memory.read t.mem s.wptr = some b ∧ b.toNat % 8 = s.final.toNat + 2)

/-- R8: `UNIT` is 5, it is the size of every literal header, and it is what `LIT` moves `WPTR` by. -/
def Obligations.UnitIsWhatLitAppends : Prop :=
  unit = 5 ∧ (∀ (f : Bit) (n : Nat), (literalBytes f n).length = unit) ∧
  ∀ (n : Int) (s : State), 0 ≤ n → n ≤ 65535 → s.err.valid = false → s.fits unit = true →
    ∃ t, exec (.lit n) s = .next t ∧ t.wptr = s.wptr + unit

/-! ## The control commands -/

/-- R130: `SETFINAL f` writes the flag and nothing else. The command is the spec's decision D8. -/
def Obligations.SetfinalWritesTheFlag : Prop :=
  ∀ (f : Bit) (s : State), s.err.valid = false → ∃ t, exec (.setfinal f) s = .next t ∧ t.final = f ∧ s.Unwritten t ∧
    t.err = s.err ∧ t.resp = some { status := .ok, cause := 0#3, data := [] }

/-- R32, R131: `GETSTAT` answers the status word, `ERR.value` and `WPTR`, in every state. Where `WPTR` does not fit 8
bytes the field widens (log entry 6). The command is the spec's decision D22. -/
def Obligations.GetstatAnswersTheRegisters : Prop :=
  ∀ s : State, ∃ t word value wptr, exec .getstat s = .next t ∧ s.Answered t ([word] ++ value ++ wptr) ∧
    word.toNat = s.final.toNat + 2 * s.err.valid.toNat + 4 * s.err.cause.toNat ∧
    word.getLsbD 0 = s.final ∧ word.getLsbD 1 = s.err.valid ∧ word.extractLsb' 2 3 = s.err.cause ∧
    word.extractLsb' 5 3 = 0#3 ∧
    value.length = 4 ∧ fromBe value = s.err.value.toNat ∧
    8 ≤ wptr.length ∧ (s.wptr < 2 ^ 64 → wptr.length = 8) ∧ fromBe wptr = s.wptr

/-! ## Faults and the fault state -/

/-- R90, R155: in the fault state every command but `SNAP` and `GETSTAT` is refused with the recorded cause. The fault
state is the spec's decision D10. -/
def Obligations.FaultStateRefusesCommands : Prop :=
  ∀ (i : Instr) (s : State), s.err.valid = true → i.readsOnly = false → ∃ t, exec i s = .next t ∧ s.Refused t

/-- R155, R156: a step from the fault state that is not the reset event leaves `BUF`, `WPTR`, `FINAL` and `ERR` as
they are, an illegal word included. The fault state is the spec's decision D10. -/
def Obligations.FaultStateIsLeftOnlyByReset : Prop :=
  ∀ s t : State, s.err.valid = true → (∀ rest, s.port ≠ .reset :: rest) → step s = .next t →
    t.err = s.err ∧ t.mem = s.mem ∧ t.wptr = s.wptr ∧ t.final = s.final

/-- R155, R158: an illegal word met in the fault state is refused and not recorded. Spec decisions D10, D11, D13. -/
def Obligations.IllegalWordInFaultStateIsRefused : Prop :=
  ∀ (s : State) (w : CmdWord) (rest : List PortItem), s.port = .word w :: rest → (∀ o : Op, ¬ o.rowMatches w) →
    s.err.valid = true → ∃ t, step s = .next t ∧ State.Refused { s with port := rest } t

/-- R153, R159: a command that faults has written nothing but `ERR`, and was not issued in the fault state. The record
in `ERR` is the spec's decision D10. -/
def Obligations.FaultingCommandWritesNothing : Prop :=
  ∀ (i : Instr) (s t : State) (r : Response), exec i s = .next t → t.resp = some r → r.status = .fault →
    s.err.valid = false ∧ s.Faulted t r.cause t.err.value

/-- R158: the priority of faults: refusal, then `IllegalCommand`, then the range fault, which a full buffer does not
mask, then `Overflow`. The order and the codes are the spec's decision D11. -/
def Obligations.FaultsHaveTheStatedPriority : Prop :=
  (∀ (i : Instr) (s : State), s.err.valid = true → i.readsOnly = false → ∃ t, exec i s = .next t ∧ s.Refused t) ∧
  (∀ (s : State) (w : CmdWord) (rest : List PortItem), s.port = .word w :: rest → (∀ o : Op, ¬ o.rowMatches w) →
    ∃ t, step s = .next t ∧
      if s.err.valid then State.Refused { s with port := rest } t
      else State.Faulted { s with port := rest } t 4#3 (w.setWidth 32)) ∧
  (∀ (v : Int) (s : State), s.err.valid = false →
    ((Instr.wbyte v).accepted = false → ∃ t, exec (.wbyte v) s = .next t ∧ s.Faulted t 1#3 (BitVec.ofInt 32 v)) ∧
    ((Instr.lit v).accepted = false → ∃ t, exec (.lit v) s = .next t ∧ s.Faulted t 2#3 (BitVec.ofInt 32 v)) ∧
    ((Instr.rep v).accepted = false → ∃ t, exec (.rep v) s = .next t ∧ s.Faulted t 3#3 (BitVec.ofInt 32 v))) ∧
  ∀ (i : Instr) (s : State), s.err.valid = false → i.appends = true → i.accepted = true →
    s.fits (i.output s.final).length = false →
    ∃ t, exec i s = .next t ∧ s.Faulted t 5#3 (BitVec.ofNat 32 (i.output s.final).length)

/-- R41, R162: `Overflow` exactly when an appending command would pass `CAP`; never with `CAP` unbounded. `CAP` is the
spec's decision D14 and the model's field (log entry 5). -/
def Obligations.OverflowExactlyBeyondCapacity : Prop :=
  (∀ (i : Instr) (s : State) (c : Nat), s.err.valid = false → i.appends = true → i.accepted = true → s.cap = some c →
    ∃ t, exec i s = .next t ∧
      if c < s.wptr + (i.output s.final).length then
        s.Faulted t 5#3 (BitVec.ofNat 32 (i.output s.final).length)
      else s.Appended t (i.output s.final)) ∧
  ∀ (i : Instr) (s : State), s.err.valid = false → i.appends = true → i.accepted = true → s.cap = none →
    ∃ t, exec i s = .next t ∧ s.Appended t (i.output s.final)

/-- R14: every command has one of three outcomes and there is no fourth; from a good state none stops. The outcomes
and the response are the spec's decisions D10 and D19; the field `resp` is the model's (log entry 4). -/
def Obligations.EveryCommandHasOneOfThreeOutcomes : Prop :=
  ∀ (i : Instr) (s : State), s.Inv → ∃ t r, exec i s = .next t ∧ t.resp = some r ∧ r.wellFormed = true ∧
    t.acc = [] ∧ t.cnt = 0 ∧
    match r.status with
    | .ok => t.err = s.err ∧ (s.err.valid = true → i.readsOnly = true)
    | .fault => s.err.valid = false ∧ t.err.valid = true ∧ t.err.cause = r.cause
    | .refused => s.err.valid = true ∧ t.err = s.err ∧ i.readsOnly = false

/-- R10, R156: a run has a result exactly when no fault is recorded, and then it is the content of the buffer. The
result is the spec's decision D25. -/
def Obligations.ResultNeedsAFaultFreeRun : Prop :=
  ∀ s : State, s.Inv → (s.err.valid = true → s.result = none) ∧ (s.err.valid = false → s.result = some s.contents)

/-! ## Reset and idling -/

/-- R180, R33: the reset event puts every piece of state at its reset value, also in the fault state; `CAP` and what
the host presents next stay (log entries 1, 5). The event is the spec's decision D9. -/
def Obligations.ResetEventRestoresTheResetState : Prop :=
  ∀ (s : State) (rest : List PortItem), s.port = .reset :: rest →
    step s = .next { State.reset with cap := s.cap, port := rest }

/-- R168: with nothing presented all state is retained unchanged (log entry 2). -/
def Obligations.IdleStepRetainsTheState : Prop := ∀ s : State, s.port = [] → step s = .next s

/-! ## Rules of the spec that carry no decision of its own -/

/-- R72: format `LITHDR`, byte by byte and field by field. -/
def Obligations.LithdrHasTheStatedFields : Prop :=
  ∀ (n : Nat) (s : State), n ≤ 65535 → s.err.valid = false → s.fits 5 = true →
    ∃ t header, exec (.lit n) s = .next t ∧ t.wptr = s.wptr + 5 ∧
      Memory.read t.mem s.wptr = some header ∧ header.getLsbD 0 = s.final ∧ header.extractLsb' 1 2 = 0b00#2 ∧
      header.extractLsb' 3 5 = 0#5 ∧
      t.memRead (s.wptr + 1) 2 = some [BitVec.ofNat 8 (n / 256), BitVec.ofNat 8 (n % 256)] ∧
      t.memRead (s.wptr + 3) 2 = some [BitVec.ofNat 8 (255 - n / 256), BitVec.ofNat 8 (255 - n % 256)]

/-- R114: `LIT n` writes no payload, and the block does not count or require one: two lengths lead to states that differ in
the bytes of the header alone, so whatever comes next is performed alike. -/
def Obligations.LitKeepsNothingOfTheLength : Prop :=
  ∀ (n m : Nat) (s t u : State), n ≤ 65535 → m ≤ 65535 → exec (.lit n) s = .next t → exec (.lit m) s = .next u →
    { t with mem := u.mem } = u ∧ t.wptr ≤ s.wptr + 5 ∧
      ∀ a, a < s.wptr ∨ s.wptr + 5 ≤ a → Memory.read t.mem a = Memory.read s.mem a

/-- R153: a faulting command, one that leaves a fault recorded where there was none, appends nothing; `LIT 65536`
and `REP 288` append nothing; and the scratch space is empty after any outcome. -/
def Obligations.FaultingCommandAppendsNothing : Prop :=
  (∀ (i : Instr) (s t : State), exec i s = .next t →
    t.acc = [] ∧ t.cnt = 0 ∧ (s.err.valid = false → t.err.valid = true → t.mem = s.mem ∧ t.wptr = s.wptr)) ∧
  ∀ (i : Instr) (s : State), i = .lit 65536 ∨ i = .rep 288 → s.err.valid = false →
    ∃ t, exec i s = .next t ∧ t.mem = s.mem ∧ t.wptr = s.wptr
end

