-- ==== Sys2Proof/Laws/Decode.lean ====
section
/-! SUPPORT. The fields of a command word, and what the beat readers can answer. -/

namespace Sys2Proof

/-- The bits of a command word: `imm` below bit 32, `op` from there on. -/
theorem getLsbD_cmdWord (op : Byte) (imm : Imm) (i : Nat) :
    (cmdWord op imm).getLsbD i = if i < 32 then imm.getLsbD i else op.getLsbD (i - 32) :=
  BitVec.getLsbD_append

@[simp] theorem opField_cmdWord (op : Byte) (imm : Imm) : opField (cmdWord op imm) = op := by
  apply BitVec.eq_of_getLsbD_eq
  intro i hi
  simp [opField, getLsbD_cmdWord, hi]

@[simp] theorem immField_cmdWord (op : Byte) (imm : Imm) : immField (cmdWord op imm) = imm := by
  apply BitVec.eq_of_getLsbD_eq
  intro i hi
  simp [immField, getLsbD_cmdWord, hi]

/-- A command word is its two fields. -/
theorem cmdWord_fields (w : CmdWord) : cmdWord (opField w) (immField w) = w := by
  apply BitVec.eq_of_getLsbD_eq
  intro i hi
  rw [getLsbD_cmdWord]
  rcases Nat.lt_or_ge i 32 with h | h
  · simp [immField, h]
  · simp [opField, Nat.not_lt.mpr h, show i - 32 < 8 by omega,
      show 32 + (i - 32) = i by omega]

/-- The beats of a byte sequence are read back, and nothing after them is touched. -/
theorem takeBytes_map (data : List Byte) (rest : List PortItem) :
    takeBytes data.length (data.map .p8 ++ rest) = .ok (data, rest) := by
  induction data with
  | nil => rfl
  | cons b bs ih => simp [takeBytes, ih]

theorem takeBits_map (bits : List Bit) (rest : List PortItem) :
    takeBits bits.length (bits.map .p1 ++ rest) = .ok (bits, rest) := by
  induction bits with
  | nil => rfl
  | cons b bs ih => simp [takeBits, ih]

/-- What `takeBytes` answers stood on the port: exactly the announced beats, then the rest. -/
theorem takeBytes_ok {k : Nat} {ps rest : List PortItem} {data : List Byte}
    (h : takeBytes k ps = .ok (data, rest)) : data.length = k ∧ ps = data.map .p8 ++ rest := by
  induction k generalizing ps data with
  | zero => simp only [takeBytes, Except.ok.injEq, Prod.mk.injEq] at h; obtain ⟨rfl, rfl⟩ := h; simp
  | succ k ih =>
    match ps with
    | [] => simp [takeBytes] at h
    | .reset :: _ => simp [takeBytes] at h
    | .p1 _ :: _ => simp [takeBytes] at h
    | .word _ :: _ => simp [takeBytes] at h
    | .p8 b :: ps =>
      rw [takeBytes] at h
      split at h
      · next bs r hr =>
        simp only [Except.ok.injEq, Prod.mk.injEq] at h
        obtain ⟨rfl, rfl⟩ := h
        obtain ⟨hl, rfl⟩ := ih hr
        simp [hl]
      · cases h

theorem takeBits_ok {k : Nat} {ps rest : List PortItem} {bits : List Bit}
    (h : takeBits k ps = .ok (bits, rest)) : bits.length = k ∧ ps = bits.map .p1 ++ rest := by
  induction k generalizing ps bits with
  | zero => simp only [takeBits, Except.ok.injEq, Prod.mk.injEq] at h; obtain ⟨rfl, rfl⟩ := h; simp
  | succ k ih =>
    match ps with
    | [] => simp [takeBits] at h
    | .reset :: _ => simp [takeBits] at h
    | .p8 _ :: _ => simp [takeBits] at h
    | .word _ :: _ => simp [takeBits] at h
    | .p1 b :: ps =>
      rw [takeBits] at h
      split at h
      · next bs r hr =>
        simp only [Except.ok.injEq, Prod.mk.injEq] at h
        obtain ⟨rfl, rfl⟩ := h
        obtain ⟨hl, rfl⟩ := ih hr
        simp [hl]
      · cases h

end Sys2Proof
end

