-- ==== Sys2Proof/Laws/Memory.lean ====
section
/-! SUPPORT. The laws of the byte buffer: a read after a write, what a write leaves alone, and that every operation keeps
the canonical form. The read laws hold of every list of cells, canonical or not. -/

namespace Sys2Proof.Machine

theorem Memory.read_write_same (m : Memory) (a : Nat) (b : Byte) : Memory.read (Memory.write m a b) a = some b := by
  induction m with
  | nil => simp [Memory.write, Memory.read]
  | cons c m ih =>
    obtain ⟨x, y⟩ := c
    simp only [Memory.write]
    split
    · simp [Memory.read]
    · split
      · simp [Memory.read]
      · next h => simp [Memory.read, h, ih]

theorem Memory.read_write_other (m : Memory) {a c : Nat} (b : Byte) (hne : c ≠ a) :
    Memory.read (Memory.write m a b) c = Memory.read m c := by
  induction m with
  | nil => simp [Memory.write, Memory.read, hne]
  | cons d m ih =>
    obtain ⟨x, y⟩ := d
    simp only [Memory.write]
    split
    · simp [Memory.read, hne]
    · split
      · next h => subst h; simp [Memory.read, hne]
      · simp [Memory.read, ih]

/-- A write of a byte sequence leaves every address outside it alone. -/
theorem Memory.read_writeSeq_outside (v : List Byte) (m : Memory) (a c : Nat) (h : c < a ∨ a + v.length ≤ c) :
    Memory.read (Memory.writeSeq m a v) c = Memory.read m c := by
  induction v generalizing m a with
  | nil => rfl
  | cons b bs ih =>
    simp only [List.length_cons] at h
    rw [Memory.writeSeq, ih _ _ (by omega), Memory.read_write_other _ _ (by omega)]

/-- A write of a byte sequence stores element `i` at the start address plus `i`. -/
theorem Memory.read_writeSeq_inside (v : List Byte) (m : Memory) (a i : Nat) (h : i < v.length) :
    Memory.read (Memory.writeSeq m a v) (a + i) = some v[i] := by
  induction v generalizing m a i with
  | nil => simp at h
  | cons b bs ih =>
    rw [Memory.writeSeq]
    cases i with
    | zero => rw [Memory.read_writeSeq_outside _ _ _ _ (by omega)]; simp [Memory.read_write_same]
    | succ i => simpa [Nat.add_assoc, Nat.add_comm 1 i] using ih (Memory.write m a b) (a + 1) i (by simpa using h)

/-- The canonical form says that the addresses strictly rise. -/
theorem Memory.wf_iff_pairwise (m : Memory) : Memory.wf m = true ↔ (m.map Prod.fst).Pairwise (· < ·) := by
  induction m with
  | nil => simp [Memory.wf]
  | cons c m ih =>
    obtain ⟨a, x⟩ := c
    cases m with
    | nil => simp [Memory.wf]
    | cons d m =>
      obtain ⟨b, y⟩ := d
      simp only [Memory.wf, Bool.and_eq_true, decide_eq_true_eq, ih, List.map_cons, List.pairwise_cons,
        List.mem_cons, forall_eq_or_imp]
      constructor
      · rintro ⟨hab, hb, hm⟩
        exact ⟨⟨hab, fun z hz => hab.trans (hb z hz)⟩, hb, hm⟩
      · rintro ⟨⟨hab, -⟩, hb, hm⟩
        exact ⟨hab, hb, hm⟩

/-- Every address of a written memory is the written one or was there before. -/
theorem Memory.mem_write (m : Memory) (a : Nat) (b : Byte) (z : Nat) (h : z ∈ (Memory.write m a b).map Prod.fst) :
    z = a ∨ z ∈ m.map Prod.fst := by
  induction m with
  | nil => simpa [Memory.write] using h
  | cons d m ih =>
    obtain ⟨x, y⟩ := d
    simp only [Memory.write] at h
    split at h
    · simpa using h
    · split at h
      · next hx => subst hx; simpa using h
      · simp only [List.map_cons, List.mem_cons] at h ⊢
        rcases h with h | h
        · exact .inr (.inl h)
        · exact (ih h).imp id .inr

theorem Memory.wf_write (m : Memory) (a : Nat) (b : Byte) (h : Memory.wf m = true) :
    Memory.wf (Memory.write m a b) = true := by
  rw [Memory.wf_iff_pairwise] at h ⊢
  induction m with
  | nil => simp [Memory.write]
  | cons d m ih =>
    obtain ⟨x, y⟩ := d
    simp only [List.map_cons, List.pairwise_cons] at h
    simp only [Memory.write]
    split
    · next hlt =>
      simp only [List.map_cons, List.pairwise_cons, List.mem_cons, forall_eq_or_imp]
      exact ⟨⟨hlt, fun z hz => hlt.trans (h.1 z hz)⟩, h⟩
    · split
      · next heq => subst heq; simpa using h
      · next hne1 hne2 =>
        simp only [List.map_cons, List.pairwise_cons]
        refine ⟨fun z hz => ?_, ih h.2⟩
        rcases Memory.mem_write m a b z hz with rfl | hz'
        · omega
        · exact h.1 z hz'

theorem Memory.wf_writeSeq (v : List Byte) (m : Memory) (a : Nat) (h : Memory.wf m = true) :
    Memory.wf (Memory.writeSeq m a v) = true := by
  induction v generalizing m a with
  | nil => exact h
  | cons b bs ih => exact ih _ _ (Memory.wf_write m a b h)

theorem Memory.wf_append (s : State) (v : List Byte) (h : Memory.wf s.mem = true) : Memory.wf (s.append v).mem = true :=
  Memory.wf_writeSeq v s.mem s.wptr h

theorem Memory.wf_reset : Memory.wf State.reset.mem = true := rfl

/-- A write beyond every listed address adds one cell at the end. -/
theorem Memory.write_beyond (m : Memory) (a : Nat) (b : Byte) (h : ∀ z ∈ m.map Prod.fst, z < a) :
    Memory.write m a b = m ++ [(a, b)] := by
  induction m with
  | nil => rfl
  | cons d m ih =>
    obtain ⟨x, y⟩ := d
    simp only [List.map_cons, List.mem_cons, forall_eq_or_imp] at h
    simp only [Memory.write, List.cons_append]
    rw [if_neg (by omega), if_neg (by omega), ih h.2]

/-- A sequence written beyond every listed address adds its cells at the end. -/
theorem Memory.writeSeq_beyond (v : List Byte) (m : Memory) (a : Nat) (h : ∀ z ∈ m.map Prod.fst, z < a) :
    Memory.writeSeq m a v = m ++ (List.range' a v.length).zip v := by
  induction v generalizing m a with
  | nil => simp [Memory.writeSeq]
  | cons b bs ih =>
    rw [Memory.writeSeq, Memory.write_beyond m a b h, ih]
    · simp [List.range'_succ]
    · intro z hz
      simp only [List.map_append, List.mem_append, List.map_cons, List.map_nil, List.mem_singleton] at hz
      rcases hz with hz | rfl
      · exact Nat.lt_succ_of_lt (h z hz)
      · exact Nat.lt_succ_self z

/-- A sequence of reads answers exactly when each address holds a value, and then gives those values in order. -/
theorem Memory.readSeq_eq_some (m : Memory) (a n : Nat) (d : List Byte) :
    Memory.readSeq m a n = some d ↔ d.length = n ∧ ∀ i (h : i < d.length), Memory.read m (a + i) = some d[i] := by
  induction n generalizing a d with
  | zero =>
    constructor
    · intro h; simp only [Memory.readSeq, Option.some.injEq] at h; subst h; simp
    · rintro ⟨h, -⟩; simp [Memory.readSeq, List.length_eq_zero_iff.mp h]
  | succ n ih =>
    rw [Memory.readSeq]
    constructor
    · intro h
      split at h
      · next b bs hb hbs =>
        obtain rfl : b :: bs = d := by simpa using h
        obtain ⟨hl, hr⟩ := (ih _ _).mp hbs
        refine ⟨by simp [hl], fun i hi => ?_⟩
        cases i with
        | zero => simpa using hb
        | succ i => simpa [Nat.add_assoc, Nat.add_comm 1 i] using hr i (by simpa using hi)
      · simp at h
    · rintro ⟨hl, hr⟩
      cases d with
      | nil => simp at hl
      | cons b bs =>
        have hb : Memory.read m a = some b := hr 0 (by simp)
        have hbs : Memory.readSeq m (a + 1) n = some bs := by
          refine (ih _ _).mpr ⟨by simpa using hl, fun i hi => ?_⟩
          rw [Nat.add_assoc, Nat.add_comm 1 i]
          exact hr (i + 1) (by simpa using hi)
        simp [hb, hbs]

end Sys2Proof.Machine
end

