-- ==== Sys2Proof/Laws/Operands.lean ====
section
/-! SUPPORT. The small lemmas of the operand and output formats and of the Huffman table. -/

namespace Sys2Proof.Machine

@[simp] theorem be_length (n v : Nat) : (be n v).length = n := by simp [be]

/-- The first byte of a big-endian sequence is the most significant. -/
theorem be_succ (n v : Nat) : be (n + 1) v = BitVec.ofNat 8 (v >>> (8 * n)) :: be n v := by
  simp only [be, List.range_succ_eq_map, List.map_cons, List.map_map]
  congr 1
  apply List.map_congr_left
  intro i hi
  simp only [List.mem_range] at hi
  simp only [Function.comp]
  congr 2
  congr 1
  omega

@[simp] theorem fromBe_nil : fromBe [] = 0 := rfl

theorem fromBe_foldl (s : List Byte) (x : Nat) :
    s.foldl (fun v b => 256 * v + b.toNat) x = x * 256 ^ s.length + fromBe s := by
  induction s generalizing x with
  | nil => simp
  | cons b s ih =>
    simp only [fromBe, List.foldl_cons, List.length_cons] at ih ⊢
    rw [ih (256 * x + _), ih (256 * 0 + _)]
    ring

/-- The first byte of a sequence carries the highest weight. -/
theorem fromBe_cons (b : Byte) (s : List Byte) : fromBe (b :: s) = b.toNat * 256 ^ s.length + fromBe s := by
  change (b :: s).foldl _ 0 = _
  rw [List.foldl_cons, fromBe_foldl]
  ring

@[simp] theorem onesComplement_length (s : List Byte) : (onesComplement s).length = s.length := be_length _ _

@[simp] theorem bitsMsb_length (c w : Nat) : (bitsMsb c w).length = w := by simp [bitsMsb]

@[simp] theorem CodeWord.bits_length (c : CodeWord) : c.bits.length = c.width := bitsMsb_length _ _

@[simp] theorem hdr_length (f : Bit) (t : BitVec 2) : (hdr f t).length = 3 := rfl

/-- Element `i` of a bit sequence is bit `i` of its value. -/
theorem testBit_bitsValue (bs : List Bit) (i : Nat) : (bitsValue bs).testBit i = (bs[i]?).getD false := by
  induction bs generalizing i with
  | nil => simp [bitsValue]
  | cons b bs ih =>
    cases i with
    | zero => cases b <;> simp [bitsValue, Nat.testBit_zero]
    | succ i =>
      simp only [List.getElem?_cons_succ, ← ih, bitsValue, Nat.testBit_succ]
      congr 1
      cases b
      · simp
      · simp
        omega

/-- Element `i` of a bit sequence is bit `i` of the byte assembled from it. -/
theorem getLsbD_byteOfBits (bs : List Bit) (i : Nat) (h : i < 8) :
    (byteOfBits bs).getLsbD i = (bs[i]?).getD false := by
  rw [byteOfBits, BitVec.getLsbD_ofNat, testBit_bitsValue]
  simp [h]

@[simp] theorem pack_nil : pack [] = [] := rfl

@[simp] theorem pack_length (bs : List Bit) : (pack bs).length = (bs.length + 7) / 8 := by simp [pack]

@[simp] theorem unpack_nil : unpack [] = [] := rfl

@[simp] theorem unpack_length (s : List Byte) : (unpack s).length = 8 * s.length := by
  induction s with
  | nil => rfl
  | cons b s ih =>
    simp only [unpack, List.flatMap_cons] at ih ⊢
    simp [ih]
    omega

/-- `fixed_code` answers the row of a value in the table's range, and nothing else. -/
theorem fixedCode_eq_some (v : Int) (c : CodeWord) :
    fixedCode v = some c ↔ 0 ≤ v ∧ v ≤ 287 ∧ c = fixedCodeRow v.toNat := by
  unfold fixedCode
  by_cases h : 0 ≤ v ∧ v ≤ 287
  · rw [if_neg (by simp only [Config.symMax]; omega)]
    simp [h, eq_comm]
  · rw [if_pos (by simp only [Config.symMax]; omega)]
    simp
    omega

theorem fixedCode_eq_none (v : Int) : fixedCode v = none ↔ v < 0 ∨ 287 < v := by
  rw [Option.eq_none_iff_forall_ne_some]
  simp only [ne_eq, fixedCode_eq_some, not_and]
  constructor
  · intro h
    by_contra hc
    exact h (fixedCodeRow v.toNat) (by omega) (by omega) rfl
  · intro h c h0 h1
    omega

end Sys2Proof.Machine
end

