-- ==== Sys2Proof/Laws/State.lean ====
section
/-! SUPPORT. The fields of the state after each named update: one lemma per field per update, so that no proof unfolds an
update. -/

namespace Sys2Proof.Machine

variable (s : State)

@[simp] theorem State.append_mem (v : List Byte) : (s.append v).mem = Memory.writeSeq s.mem s.wptr v := rfl
@[simp] theorem State.append_wptr (v : List Byte) : (s.append v).wptr = s.wptr + v.length := rfl
@[simp] theorem State.append_acc (v : List Byte) : (s.append v).acc = s.acc := rfl
@[simp] theorem State.append_cnt (v : List Byte) : (s.append v).cnt = s.cnt := rfl
@[simp] theorem State.append_final (v : List Byte) : (s.append v).final = s.final := rfl
@[simp] theorem State.append_err (v : List Byte) : (s.append v).err = s.err := rfl
@[simp] theorem State.append_cap (v : List Byte) : (s.append v).cap = s.cap := rfl
@[simp] theorem State.append_port (v : List Byte) : (s.append v).port = s.port := rfl
@[simp] theorem State.append_resp (v : List Byte) : (s.append v).resp = s.resp := rfl

@[simp] theorem State.clearScratch_mem : (s.clearScratch).mem = s.mem := rfl
@[simp] theorem State.clearScratch_wptr : (s.clearScratch).wptr = s.wptr := rfl
@[simp] theorem State.clearScratch_acc : (s.clearScratch).acc = [] := rfl
@[simp] theorem State.clearScratch_cnt : (s.clearScratch).cnt = 0 := rfl
@[simp] theorem State.clearScratch_final : (s.clearScratch).final = s.final := rfl
@[simp] theorem State.clearScratch_err : (s.clearScratch).err = s.err := rfl
@[simp] theorem State.clearScratch_cap : (s.clearScratch).cap = s.cap := rfl
@[simp] theorem State.clearScratch_port : (s.clearScratch).port = s.port := rfl
@[simp] theorem State.clearScratch_resp : (s.clearScratch).resp = s.resp := rfl

@[simp] theorem State.respond_mem (r : Response) : (s.respond r).mem = s.mem := rfl
@[simp] theorem State.respond_wptr (r : Response) : (s.respond r).wptr = s.wptr := rfl
@[simp] theorem State.respond_acc (r : Response) : (s.respond r).acc = [] := rfl
@[simp] theorem State.respond_cnt (r : Response) : (s.respond r).cnt = 0 := rfl
@[simp] theorem State.respond_final (r : Response) : (s.respond r).final = s.final := rfl
@[simp] theorem State.respond_err (r : Response) : (s.respond r).err = s.err := rfl
@[simp] theorem State.respond_cap (r : Response) : (s.respond r).cap = s.cap := rfl
@[simp] theorem State.respond_port (r : Response) : (s.respond r).port = s.port := rfl
@[simp] theorem State.respond_resp (r : Response) : (s.respond r).resp = some r := rfl

@[simp] theorem State.ok_mem (data : List Byte) : (s.ok data).mem = s.mem := rfl
@[simp] theorem State.ok_wptr (data : List Byte) : (s.ok data).wptr = s.wptr := rfl
@[simp] theorem State.ok_acc (data : List Byte) : (s.ok data).acc = [] := rfl
@[simp] theorem State.ok_cnt (data : List Byte) : (s.ok data).cnt = 0 := rfl
@[simp] theorem State.ok_final (data : List Byte) : (s.ok data).final = s.final := rfl
@[simp] theorem State.ok_err (data : List Byte) : (s.ok data).err = s.err := rfl
@[simp] theorem State.ok_cap (data : List Byte) : (s.ok data).cap = s.cap := rfl
@[simp] theorem State.ok_port (data : List Byte) : (s.ok data).port = s.port := rfl
@[simp] theorem State.ok_resp (data : List Byte) : (s.ok data).resp = some { status := .ok, cause := 0#3, data := data } := rfl

@[simp] theorem State.takeFault_mem (c : FaultCause) (value : Imm) : (s.takeFault c value).mem = s.mem := rfl
@[simp] theorem State.takeFault_wptr (c : FaultCause) (value : Imm) : (s.takeFault c value).wptr = s.wptr := rfl
@[simp] theorem State.takeFault_acc (c : FaultCause) (value : Imm) : (s.takeFault c value).acc = [] := rfl
@[simp] theorem State.takeFault_cnt (c : FaultCause) (value : Imm) : (s.takeFault c value).cnt = 0 := rfl
@[simp] theorem State.takeFault_final (c : FaultCause) (value : Imm) : (s.takeFault c value).final = s.final := rfl
@[simp] theorem State.takeFault_err (c : FaultCause) (value : Imm) : (s.takeFault c value).err = { valid := true, cause := c.code, value := value } := rfl
@[simp] theorem State.takeFault_cap (c : FaultCause) (value : Imm) : (s.takeFault c value).cap = s.cap := rfl
@[simp] theorem State.takeFault_port (c : FaultCause) (value : Imm) : (s.takeFault c value).port = s.port := rfl
@[simp] theorem State.takeFault_resp (c : FaultCause) (value : Imm) : (s.takeFault c value).resp = some { status := .fault, cause := c.code, data := [] } := rfl

@[simp] theorem State.refuse_mem : (s.refuse).mem = s.mem := rfl
@[simp] theorem State.refuse_wptr : (s.refuse).wptr = s.wptr := rfl
@[simp] theorem State.refuse_acc : (s.refuse).acc = [] := rfl
@[simp] theorem State.refuse_cnt : (s.refuse).cnt = 0 := rfl
@[simp] theorem State.refuse_final : (s.refuse).final = s.final := rfl
@[simp] theorem State.refuse_err : (s.refuse).err = s.err := rfl
@[simp] theorem State.refuse_cap : (s.refuse).cap = s.cap := rfl
@[simp] theorem State.refuse_port : (s.refuse).port = s.port := rfl
@[simp] theorem State.refuse_resp : (s.refuse).resp = some { status := .refused, cause := s.err.cause, data := [] } := rfl

@[simp] theorem State.applyReset_mem : (s.applyReset).mem = [] := rfl
@[simp] theorem State.applyReset_wptr : (s.applyReset).wptr = 0 := rfl
@[simp] theorem State.applyReset_acc : (s.applyReset).acc = [] := rfl
@[simp] theorem State.applyReset_cnt : (s.applyReset).cnt = 0 := rfl
@[simp] theorem State.applyReset_final : (s.applyReset).final = false := rfl
@[simp] theorem State.applyReset_err : (s.applyReset).err = Err.clear := rfl
@[simp] theorem State.applyReset_cap : (s.applyReset).cap = s.cap := rfl
@[simp] theorem State.applyReset_port : (s.applyReset).port = s.port := rfl
@[simp] theorem State.applyReset_resp : (s.applyReset).resp = none := rfl

end Sys2Proof.Machine
end

