-- ==== Sys2Proof/Laws/Ops.lean ====
section
/-! SUPPORT. One lemma per shared operation that says everything it can do. -/

namespace Sys2Proof.Machine

variable (s : State)

@[simp] theorem State.prologue_of_fault (body : State → State) (h : s.err.valid = true) : s.prologue body = s.refuse := by
  simp [State.prologue, h]

@[simp] theorem State.prologue_of_clear (body : State → State) (h : s.err.valid = false) : s.prologue body = body s := by
  simp [State.prologue, h]

/-- The prologue refuses in the fault state and else lets the command act. -/
theorem State.prologue_cases (body : State → State) :
    (s.err.valid = true ∧ s.prologue body = s.refuse) ∨ (s.err.valid = false ∧ s.prologue body = body s) := by
  cases h : s.err.valid <;> simp [h]

/-- An appending command appends all its bytes and answers ok, or raises `Overflow`. -/
theorem State.appendCommand_cases (v : List Byte) :
    (s.fits v.length = true ∧ s.appendCommand v = (s.append v).ok []) ∨
    (s.fits v.length = false ∧ s.appendCommand v = s.takeFault .overflow (BitVec.ofNat 32 v.length)) := by
  cases h : s.fits v.length <;> simp [State.appendCommand, h]

/-- An illegal word is refused in the fault state and else raises `IllegalCommand`. -/
theorem State.takeIllegal_cases (w : CmdWord) :
    (s.err.valid = true ∧ s.takeIllegal w = s.refuse) ∨
    (s.err.valid = false ∧ s.takeIllegal w = s.takeFault .illegalCommand (immField w)) :=
  s.prologue_cases _

/-- What `fits` says of the capacity. -/
theorem State.fits_iff (k : Nat) : s.fits k = true ↔ ∀ c, s.cap = some c → s.wptr + k ≤ c := by
  unfold State.fits
  cases s.cap <;> simp

/-- `MemRead` answers the bytes at the addresses asked for, all of them below `WPTR`. -/
theorem State.memRead_eq_some (a n : Nat) (d : List Byte) :
    s.memRead a n = some d ↔
      a + n ≤ s.wptr ∧ d.length = n ∧ ∀ i (h : i < d.length), Memory.read s.mem (a + i) = some d[i] := by
  unfold State.memRead
  split
  · next h => simp [h, Memory.readSeq_eq_some]
  · next h => simp [h]

end Sys2Proof.Machine
end

