-- ==== Sys2Proof/Laws/PerInstr.lean ====
section
/-! SUPPORT. Statements made of every command as syntax, one lemma per constructor. -/

namespace Sys2Proof.Laws.EncodeShape

/-- The word that spells a well-formed command carries its opcode and operand, has its must-be-zero bits zero, and
announces exactly the beats that follow it (R60, R61, R63, R65). -/
def Statement (i : Instr) : Prop :=
  i.wellFormed = true →
    opField i.word = i.op.code ∧ immField i.word = i.imm ∧ (i.imm &&& i.op.zeroBits) = 0#32 ∧
      i.beats.length = announcedBeats i.word

theorem wbyte (v : Int) : Statement (.wbyte v) := fun _ =>
  ⟨by simp [Instr.word], by simp [Instr.word], by simp [Instr.op, Op.zeroBits],
    by simp [Instr.beats, announcedBeats, Instr.word, Instr.op, Op.code]⟩

theorem wbytes (data : List Byte) : Statement (.wbytes data) := fun h =>
  ⟨by simp [Instr.word], by simp [Instr.word], by simp [Instr.op, Op.zeroBits], by
    have hl : data.length < 2 ^ 32 := by simpa [Instr.wellFormed, fitsCount] using h
    simp [Instr.beats, announcedBeats, Instr.word, Instr.op, Instr.imm]
    omega⟩

theorem abf (bits : List Bit) : Statement (.abf bits) := fun h =>
  ⟨by simp [Instr.word], by simp [Instr.word], by simp [Instr.op, Op.zeroBits], by
    have hl : bits.length < 2 ^ 32 := by simpa [Instr.wellFormed, fitsCount] using h
    simp [Instr.beats, announcedBeats, Instr.word, Instr.op, Instr.imm]
    omega⟩

theorem ocpl (x0 x1 : Byte) : Statement (.ocpl x0 x1) := fun _ =>
  ⟨by simp [Instr.word], by simp [Instr.word], by
    simp only [Instr.op, Op.zeroBits, Instr.imm]
    apply BitVec.eq_of_getLsbD_eq
    intro i _
    rcases Nat.lt_or_ge i 16 with h | h
    · have hz : (0xFFFF0000#32).getLsbD i = false := by interval_cases i <;> rfl
      rw [BitVec.getLsbD_and, hz, Bool.and_false, BitVec.getLsbD_zero]
    · have hz : (x0 ++ x1).getLsbD i = false := BitVec.getLsbD_of_ge _ _ h
      rw [BitVec.getLsbD_and, BitVec.getLsbD_setWidth, hz, Bool.and_false, Bool.false_and, BitVec.getLsbD_zero],
    by simp [Instr.beats, announcedBeats, Instr.word, Instr.op, Op.code]⟩

theorem snap : Statement .snap := fun _ =>
  ⟨by simp [Instr.word], by simp [Instr.word], by simp [Instr.imm],
    by simp [Instr.beats, announcedBeats, Instr.word, Instr.op, Op.code]⟩

theorem lit (n : Int) : Statement (.lit n) := fun _ =>
  ⟨by simp [Instr.word], by simp [Instr.word], by simp [Instr.op, Op.zeroBits],
    by simp [Instr.beats, announcedBeats, Instr.word, Instr.op, Op.code]⟩

theorem rep (n : Int) : Statement (.rep n) := fun _ =>
  ⟨by simp [Instr.word], by simp [Instr.word], by simp [Instr.op, Op.zeroBits],
    by simp [Instr.beats, announcedBeats, Instr.word, Instr.op, Op.code]⟩

theorem setfinal (f : Bit) : Statement (.setfinal f) := fun _ =>
  ⟨by simp [Instr.word], by simp [Instr.word], by cases f <;> decide,
    by simp [Instr.beats, announcedBeats, Instr.word, Instr.op, Op.code]⟩

theorem getstat : Statement .getstat := fun _ =>
  ⟨by simp [Instr.word], by simp [Instr.word], by simp [Instr.imm],
    by simp [Instr.beats, announcedBeats, Instr.word, Instr.op, Op.code]⟩

end Sys2Proof.Laws.EncodeShape
end

