-- ==== Sys2Proof/Laws/Step.lean ====
section
/-! SUPPORT. Said once: everything a command and a step can do when they answer a next state. Every invariant and frame
follows from these by cases. -/

namespace Sys2Proof.Machine

/-- What a command did. -/
inductive Did (i : Instr) (s t : State) : Prop where
  /-- It was refused in the fault state. -/
  | refused (hv : s.err.valid = true) (hi : i.readsOnly = false) (ht : t = s.refuse)
  /-- It took a fault. -/
  | faulted (c : FaultCause) (value : Imm) (hv : s.err.valid = false) (ht : t = s.takeFault c value)
  /-- It appended its output. -/
  | appended (hv : s.err.valid = false) (hi : i.appends = true) (ha : i.accepted = true)
      (hf : s.fits (i.output s.final).length = true) (ht : t = (s.append (i.output s.final)).ok [])
  /-- It answered and wrote nothing. -/
  | answered (data : List Byte) (hv : i.readsOnly = true ∨ s.err.valid = false) (hi : i.appends = false)
      (ho : i.output s.final = []) (hn : ∀ f, i ≠ .setfinal f) (ht : t = s.ok data)
  /-- It wrote the final flag. -/
  | flagged (f : Bit) (hv : s.err.valid = false) (hi : i = .setfinal f) (ht : t = { s with final := f }.ok [])

theorem Did.of_appendCommand (i : Instr) (s : State) (hv : s.err.valid = false) (hi : i.appends = true)
    (ha : i.accepted = true) : Did i s (s.appendCommand (i.output s.final)) := by
  rcases s.appendCommand_cases (i.output s.final) with ⟨hf, h⟩ | ⟨hf, h⟩
  · exact .appended hv hi ha hf h
  · exact .faulted _ _ hv h

/-- A command behind the prologue was refused, or did what its body does. -/
theorem Did.of_prologue (i : Instr) (s : State) (body : State → State) (hi : i.readsOnly = false)
    (h : s.err.valid = false → Did i s (body s)) : Did i s (s.prologue body) := by
  rcases s.prologue_cases body with ⟨hv, hp⟩ | ⟨hv, hp⟩
  · exact .refused hv hi hp
  · exact hp ▸ h hv

/-- Everything a command can do when it answers a next state. -/
theorem exec_did (i : Instr) (s t : State) (h : exec i s = .next t) : Did i s t := by
  cases i with
  | snap =>
    simp only [exec, execSnap] at h
    split at h <;> cases h
    exact .answered _ (.inl rfl) rfl rfl (by simp) rfl
  | getstat => cases h; exact .answered _ (.inl rfl) rfl rfl (by simp) rfl
  | wbyte v =>
    cases h
    refine .of_prologue _ _ _ rfl fun hv => ?_
    split
    · exact .faulted _ _ hv rfl
    · next hr =>
      simp only [Config.byteMax, Config.byteBits] at hr
      exact .of_appendCommand (.wbyte v) s hv rfl (by simp only [Instr.accepted, Bool.and_eq_true, decide_eq_true_eq]; omega)
  | lit n =>
    cases h
    refine .of_prologue _ _ _ rfl fun hv => ?_
    split
    · exact .faulted _ _ hv rfl
    · next hr =>
      simp only [Config.lenMax, Config.lenBits] at hr
      exact .of_appendCommand (.lit n) s hv rfl (by simp only [Instr.accepted, Bool.and_eq_true, decide_eq_true_eq]; omega)
  | rep n =>
    cases h
    refine .of_prologue _ _ _ rfl fun hv => ?_
    split
    · next l d hl hd =>
      obtain ⟨-, -, rfl⟩ := (fixedCode_eq_some _ _).mp hl
      obtain ⟨h0, h1, rfl⟩ := (fixedCode_eq_some _ _).mp hd
      exact .of_appendCommand (.rep n) s hv rfl (by simp only [Instr.accepted, Bool.and_eq_true, decide_eq_true_eq]; omega)
    · exact .faulted _ _ hv rfl
  | wbytes data => cases h; exact .of_prologue _ _ _ rfl fun hv => .of_appendCommand (.wbytes data) s hv rfl rfl
  | abf bits => cases h; exact .of_prologue _ _ _ rfl fun hv => .of_appendCommand (.abf bits) s hv rfl rfl
  | ocpl x0 x1 =>
    cases h
    exact .of_prologue _ _ _ rfl fun hv => .answered _ (.inr hv) rfl rfl (by simp) rfl
  | setfinal f => cases h; exact .of_prologue _ _ _ rfl fun hv => .flagged f hv rfl rfl

/-- What a step did. -/
inductive Stepped (s t : State) : Prop where
  | idle (hp : s.port = []) (ht : t = s)
  | reset (rest : List PortItem) (hp : s.port = .reset :: rest) (ht : t = { s with port := rest }.applyReset)
  | command (i : Instr) (rest : List PortItem) (hp : decode s.port = .command i rest)
      (ht : Did i { s with port := rest } t)
  | illegalRefused (w : CmdWord) (rest : List PortItem) (hp : s.port = .word w :: rest) (hw : wordOp w = none)
      (hv : s.err.valid = true) (ht : t = { s with port := rest }.refuse)
  | illegalFaulted (w : CmdWord) (rest : List PortItem) (hp : s.port = .word w :: rest) (hw : wordOp w = none)
      (hv : s.err.valid = false) (ht : t = { s with port := rest }.takeFault .illegalCommand (immField w))

/-- What a legal word decodes to. -/
theorem decodeOperand_cases (o : Op) (imm : Imm) (rest : List PortItem) :
    (∃ i rest', decodeOperand o imm rest = .command i rest') ∨ ∃ e, decodeOperand o imm rest = .malformed e := by
  cases o
  case wbytes => rw [decodeOperand]; split; exacts [.inl ⟨_, _, rfl⟩, .inr ⟨_, rfl⟩]
  case abf => rw [decodeOperand]; split; exacts [.inl ⟨_, _, rfl⟩, .inr ⟨_, rfl⟩]
  all_goals exact .inl ⟨_, _, rfl⟩

/-- Everything a step can do when it answers a next state. -/
theorem step_did (s t : State) (h : step s = .next t) : Stepped s t := by
  unfold step at h
  match hp : s.port with
  | [] => rw [hp] at h; cases h; exact .idle hp rfl
  | .reset :: rest => rw [hp] at h; cases h; exact .reset rest hp rfl
  | .p8 _ :: _ => rw [hp] at h; cases h
  | .p1 _ :: _ => rw [hp] at h; cases h
  | .word w :: rest =>
    have hd : decode s.port = decodeWord w rest := by rw [hp]; rfl
    rw [hd] at h
    unfold decodeWord at h hd
    cases hw : wordOp w with
    | some o =>
      rw [hw] at h hd
      rcases decodeOperand_cases o (immField w) rest with ⟨i, rest', ho⟩ | ⟨e, ho⟩
      · simp only [ho] at h hd
        exact .command i rest' hd (exec_did _ _ _ h)
      · simp only [ho] at h
        cases h
    | none =>
      simp only [hw] at h
      cases h
      rcases State.takeIllegal_cases { s with port := rest } w with ⟨hv, ht⟩ | ⟨hv, ht⟩
      · exact .illegalRefused w rest hp hw hv ht
      · exact .illegalFaulted w rest hp hw hv ht

end Sys2Proof.Machine
end

