-- ==== Sys2Proof/Machine/Assembly.lean ====
section
/-! DEFINITION. The assembler syntax of spec/30_encoding.md R67: one command per line, `;` starts a comment, integers
decimal or hexadecimal with a `0x` prefix. How white space separates the words of a line is PRESUMED (log entry 15). -/

namespace Sys2Proof.Machine

/-- The mnemonic of an opcode (R62, R67). -/
def mnemonicChars : Op → List Char
  | .wbyte => ['W', 'B', 'Y', 'T', 'E']
  | .wbytes => ['W', 'B', 'Y', 'T', 'E', 'S']
  | .abf => ['A', 'B', 'F']
  | .ocpl => ['O', 'C', 'P', 'L']
  | .snap => ['S', 'N', 'A', 'P']
  | .lit => ['L', 'I', 'T']
  | .rep => ['R', 'E', 'P']
  | .setfinal => ['S', 'E', 'T', 'F', 'I', 'N', 'A', 'L']
  | .getstat => ['G', 'E', 'T', 'S', 'T', 'A', 'T']

/-- The words of a line, `cur` being the word read so far, reversed. -/
def wordsFrom : List Char → List Char → List (List Char)
  | cur, [] => if cur.isEmpty then [] else [cur.reverse]
  | cur, c :: cs =>
    if c == ' ' || c == '\t' then
      if cur.isEmpty then wordsFrom [] cs else cur.reverse :: wordsFrom [] cs
    else wordsFrom (c :: cur) cs

/-- The value of a digit in a base up to 16. -/
def digitValue (base : Nat) (c : Char) : Option Nat :=
  let n := c.toNat
  let v :=
    if 48 ≤ n ∧ n ≤ 57 then n - 48
    else if 65 ≤ n ∧ n ≤ 70 then n - 55
    else if 97 ≤ n ∧ n ≤ 102 then n - 87
    else 16
  if v < base then some v else none

/-- The digits of a number, most significant first; `acc` is the value of those already read. -/
def digitsFrom (base : Nat) : Nat → List Char → Option Nat
  | acc, [] => some acc
  | acc, c :: cs =>
    match digitValue base c with
    | some d => digitsFrom base (base * acc + d) cs
    | none => none

/-- An unsigned integer, decimal or `0x` hexadecimal, with at least one digit. -/
def parseNat : List Char → Option Nat
  | [] => none
  | '0' :: 'x' :: c :: cs => digitsFrom 16 0 (c :: cs)
  | c :: cs => digitsFrom 10 0 (c :: cs)

/-- A signed integer. -/
def parseInt : List Char → Option Int
  | '-' :: cs => (parseNat cs).map fun n => -(n : Int)
  | cs => (parseNat cs).map fun n => (n : Int)

/-- A byte of two hexadecimal digits. -/
def parseByte : List Char → Option Byte
  | [c, d] => (digitsFrom 16 0 [c, d]).map fun n => BitVec.ofNat 8 n
  | _ => none

/-- The bytes of a list of words. -/
def parseBytes : List (List Char) → Option (List Byte)
  | [] => some []
  | t :: ts =>
    match parseByte t, parseBytes ts with
    | some b, some bs => some (b :: bs)
    | _, _ => none

/-- A bit. -/
def parseBit : Char → Option Bit
  | '0' => some false
  | '1' => some true
  | _ => none

/-- A bit string, first digit first in stream order. -/
def parseBits : List Char → Option (List Bit)
  | [] => some []
  | c :: cs =>
    match parseBit c, parseBits cs with
    | some b, some bs => some (b :: bs)
    | _, _ => none

/-- The operands of a command line. -/
def parseOperands : Op → List (List Char) → Option Instr
  | .wbyte, [t] => (parseInt t).map .wbyte
  | .wbytes, ts => (parseBytes ts).map .wbytes
  | .abf, [] => some (.abf [])
  | .abf, [t] => (parseBits t).map .abf
  | .ocpl, [t, u] =>
    match parseByte t, parseByte u with
    | some x0, some x1 => some (.ocpl x0 x1)
    | _, _ => none
  | .snap, [] => some .snap
  | .lit, [t] => (parseInt t).map .lit
  | .rep, [t] => (parseInt t).map .rep
  | .setfinal, [[c]] => (parseBit c).map .setfinal
  | .getstat, [] => some .getstat
  | _, _ => none

/-- A command line without its comment: a command that has a command word, or nothing. -/
def parseWords : List (List Char) → Option Instr
  | [] => none
  | m :: ts =>
    match opMap.find? fun o => mnemonicChars o == m with
    | some o => (parseOperands o ts).filter Instr.wellFormed
    | none => none

/-- A line of assembly (R67): `some none` for a line with no command on it, `none` for a line that is no assembly. -/
def parseLine (line : List Char) : Option (Option Instr) :=
  match wordsFrom [] (line.takeWhile (· != ';')) with
  | [] => some none
  | ws => (parseWords ws).map some

end Sys2Proof.Machine
end

