-- ==== Sys2Proof/Machine/HostSequence.lean ====
section
/-! DEFINITION. The host's side as the spec transcribes it: pseudo-instructions (spec/30_encoding.md R68), sizing (R141)
and the reference command sequence (spec/49_host_sequence.md R142). The host is out of scope as hardware (R5): nothing of
the machine uses this file, and no decoded meaning is given to the bytes (R144). -/

namespace Sys2Proof.Machine

/-- The pseudo-instructions of R68. -/
inductive Pseudo where
  /-- `L[x]`, also `Literal(x)` and `emit_literal_header(x)`. -/
  | literal (x : Nat)
  /-- `R[x]`, also `Repeat(x)`. -/
  | rept (x : Nat)
  /-- A bare symbol naming a byte sequence. -/
  | raw (data : List Byte)
deriving DecidableEq, Repr

/-- The command a pseudo-instruction expands to (R68); a literal header and its payload stay two commands (R114). -/
def Pseudo.expand : Pseudo → Instr
  | .literal x => .lit x
  | .rept x => .rep x
  | .raw data => .wbytes data

/-- `P` or `S`: the length of a prefix or suffix plus `UNIT`, which comes from the encoder (R8, R141, R186). -/
def sizeWithUnit (data : List Byte) : Nat := data.length + unit

/-- The reference sequence, in the order of R142, for prefix `h`, suffix `t` and its compressed form `tc`. -/
def hostPseudo (h t tc : List Byte) : List Pseudo :=
  let p := sizeWithUnit h
  let s := sizeWithUnit t
  let u := unit
  let q := 4 * unit
  [.raw h] ++
  [.literal p, .raw h, .literal p] ++
  [.rept p] ++
  [.literal u, .rept p] ++
  [.literal u, .literal u] ++
  [.literal q, .rept p, .literal u, .literal u, .literal q] ++
  [.rept q] ++
  [.literal q, .rept q, .literal q, .rept q, .literal q] ++
  [.rept q] ++
  [.literal q, .rept q, .literal 0, .literal 0, .literal s] ++
  [.rept q] ++
  [.literal 0, .literal 0, .literal s, .rept s, .raw tc] ++
  [.rept s] ++
  [.raw tc]

/-- The commands of the sequence (R142). -/
def hostSequence (h t tc : List Byte) : List Instr := (hostPseudo h t tc).map Pseudo.expand

/-- What the host presents on the command port for a list of commands (R61). -/
def presented (cmds : List Instr) : List PortItem := cmds.flatMap encode

end Sys2Proof.Machine
end

