-- ==== Sys2Proof/Tests/Slice0.lean ====
section
/-! SUPPORT. The model's own tests: the check of well-formedness, words written out from the spec's encoding, one or two
single steps for each command with results taken from spec/95_test_vectors.md, and a witness for the hypotheses of each
statement. -/

namespace Sys2Proof.Tests

open Machine

/-! ## Helpers -/

/-- The next state of an outcome. -/
def nextOf : Host.Outcome State Fault Refusal → Option State
  | .next t => some t
  | .fault _ => none
  | .refused _ => none

theorem eq_next_of_nextOf {o : Host.Outcome State Fault Refusal} {t : State} (h : nextOf o = some t) : o = .next t := by
  cases o <;> simp_all [nextOf]

/-- The outcome is a next state whose response has this status. -/
def answers (status : Status) (o : Host.Outcome State Fault Refusal) : Bool :=
  match nextOf o with
  | none => false
  | some t =>
    match t.resp with
    | none => false
    | some r => decide (r.status = status)

theorem next_of_answers {status : Status} {o : Host.Outcome State Fault Refusal} (h : answers status o = true) :
    ∃ t r, o = .next t ∧ t.resp = some r ∧ r.status = status := by
  unfold answers at h
  split at h
  · cases h
  · next t ht =>
    split at h
    · cases h
    · next r hr => exact ⟨t, r, eq_next_of_nextOf ht, hr, of_decide_eq_true h⟩

/-- A state with these bytes in the buffer. -/
def holding (bytes : List Byte) : State :=
  { State.reset with mem := (List.range bytes.length).zip bytes, wptr := bytes.length }

/-- The same with the fault of `LIT 65536` recorded (spec/95 P4). -/
def faulted : State := { holding [0x1F#8, 0x8B#8] with err := { valid := true, cause := 2#3, value := 0x00010000#32 } }

/-- A state with these items presented. -/
def presenting (s : State) (ps : List PortItem) : State := { s with port := ps }

/-- Buffer content, write pointer and response data after a step of `exec`. -/
def seen (i : Instr) (s : State) : Option (List Byte × Nat × Err × Option Response) :=
  (nextOf (exec i s)).map fun t => (t.contents, t.wptr, t.err, t.resp)

def okData (d : List Byte) : Option Response := some { status := .ok, cause := 0#3, data := d }

theorem holding_inv : (holding [0x1F#8, 0x8B#8]).Inv :=
  ⟨by decide, ⟨rfl, rfl⟩, fun _ => ⟨rfl, rfl⟩, fun h => (by cases h), rfl, fun _ h => (by cases h)⟩

theorem faulted_inv : faulted.Inv :=
  ⟨by decide, ⟨rfl, rfl⟩, fun h => (by cases h), fun _ => ⟨by decide, by decide⟩, rfl, fun _ h => (by cases h)⟩

/-! ## Well-formedness: an ill-formed command for each check -/

theorem test_wellFormed_refuses_signed :
    (Instr.wbyte (2 ^ 31)).wellFormed = false ∧ (Instr.lit (-(2 ^ 31) - 1)).wellFormed = false ∧
    (Instr.rep (2 ^ 31)).wellFormed = false := by decide

theorem test_wellFormed_refuses_counts (n : Nat) (h : n = 2 ^ 32) :
    (Instr.wbytes (List.replicate n 0#8)).wellFormed = false ∧ (Instr.abf (List.replicate n false)).wellFormed = false := by
  simp only [Instr.wellFormed, fitsCount, List.length_replicate, h]
  decide

theorem test_wellFormed_accepts_bounds :
    (Instr.wbyte (-(2 ^ 31))).wellFormed = true ∧ (Instr.lit (2 ^ 31 - 1)).wellFormed = true := by decide

/-! ## Decoding: words of spec/95_test_vectors.md -/

theorem test_decode_wbyte : decode [.word 0x0100000100#40] = .command (.wbyte 256) [] ∧
    decode [.word 0x01FFFFFFFF#40] = .command (.wbyte (-1)) [] := by decide

theorem test_decode_wbytes : decode [.word 0x0200000002#40, .p8 0x03#8, .p8 0x00#8, .word 0x0500000000#40] =
    .command (.wbytes [0x03#8, 0x00#8]) [.word 0x0500000000#40] := by decide

theorem test_decode_abf : decode [.word 0x0300000003#40, .p1 true, .p1 false, .p1 false] =
    .command (.abf [true, false, false]) [] := by decide

theorem test_decode_ocpl : decode [.word 0x0400001234#40] = .command (.ocpl 0x12#8 0x34#8) [] ∧
    decode [.word 0x0400010005#40] = .illegal 0x0400010005#40 [] := by decide

theorem test_decode_snap : decode [.word 0x0500000000#40] = .command .snap [] ∧
    decode [.word 0x0580000000#40] = .illegal 0x0580000000#40 [] := by decide

theorem test_decode_lit : decode [.word 0x1000010000#40] = .command (.lit 65536) [] ∧
    decode [.word 0x10FFFFFFFF#40] = .command (.lit (-1)) [] := by decide

theorem test_decode_rep : decode [.word 0x110000011F#40] = .command (.rep 287) [] ∧
    decode [.word 0x11FFFFFFFF#40] = .command (.rep (-1)) [] := by decide

theorem test_decode_setfinal : decode [.word 0x2000000001#40] = .command (.setfinal true) [] ∧
    decode [.word 0x2000000002#40] = .illegal 0x2000000002#40 [] := by decide

theorem test_decode_getstat : decode [.word 0x2100000000#40] = .command .getstat [] ∧
    decode [.word 0x2100000001#40] = .illegal 0x2100000001#40 [] := by decide

theorem test_decode_unassigned : decode [.word 0x0000000000#40] = .illegal 0x0000000000#40 [] ∧
    decode [.word 0xFF12345678#40] = .illegal 0xFF12345678#40 [] := by decide

theorem test_decode_framing : decode [.p1 true] = .malformed .wordExpected ∧
    decode [.word 0x0200000002#40, .p8 0x03#8] = .malformed .beatMissing ∧
    decode [.word 0x0200000001#40, .p1 true] = .malformed .beatOfWrongKind ∧
    decode [.word 0x0300000001#40, .reset] = .malformed .resetInCommand := by decide

/-- The match value of each row of spec/opcode_table.json decodes to that row's command. -/
theorem test_tableRows_decode :
    opMap.map (fun o => (decodeTableWord 40 o.tableRow.1.toNat).map Instr.op) = opMap.map some := by decide

/-- A table row's word, placed after reset, is the first thing the machine runs; with operand bits 40 and up it takes
beats. -/
theorem test_placed_word_runs :
    (nextOf (step (State.reset.withFetchWord 40 0x1000000000))).map State.contents =
      some [0x00#8, 0x00#8, 0x00#8, 0xFF#8, 0xFF#8] ∧
    decodeTableWord 56 0xCD_AB_0200000002 = some (.wbytes [0xAB#8, 0xCD#8]) ∧
    decodeTableWord 40 0x0300000003 = some (.abf [false, false, false]) := by decide

/-! ## One step of each command: results from spec/95_test_vectors.md -/

theorem test_wbyte_256_faults :
    seen (.wbyte 256) State.reset =
      some ([], 0, { valid := true, cause := 1#3, value := 0x00000100#32 },
        some { status := .fault, cause := 1#3, data := [] }) := by decide

theorem test_wbyte_255 : seen (.wbyte 255) State.reset = some ([0xFF#8], 1, Err.clear, okData []) := by decide

theorem test_wbytes_verbatim :
    seen (.wbytes [0x61#8, 0x62#8, 0x63#8]) (holding [0xFF#8]) =
      some ([0xFF#8, 0x61#8, 0x62#8, 0x63#8], 4, Err.clear, okData []) := by decide

theorem test_wbytes_full :
    seen (.wbytes []) { holding [1#8, 2#8, 3#8, 4#8, 5#8] with cap := some 5 } =
      some ([1#8, 2#8, 3#8, 4#8, 5#8], 5, Err.clear, okData []) ∧
    seen (.wbytes [0#8]) { holding [1#8, 2#8, 3#8, 4#8, 5#8] with cap := some 5 } =
      some ([1#8, 2#8, 3#8, 4#8, 5#8], 5, { valid := true, cause := 5#3, value := 1#32 },
        some { status := .fault, cause := 5#3, data := [] }) := by decide

theorem test_abf_10110001 :
    seen (.abf [true, false, true, true, false, false, false, true]) State.reset =
      some ([0x8D#8], 1, Err.clear, okData []) := by decide

theorem test_abf_header_and_code :
    seen (.abf [false, true, false, false, false, true, true, false, false, false, false]) (holding [0x01#8]) =
      some ([0x01#8, 0x62#8, 0x00#8], 3, Err.clear, okData []) := by decide

theorem test_ocpl : seen (.ocpl 0x12#8 0x34#8) State.reset = some ([], 0, Err.clear, okData [0xED#8, 0xCB#8]) := by decide

theorem test_snap_in_fault_state :
    seen .snap faulted = some ([0x1F#8, 0x8B#8], 2, faulted.err, okData [0x1F#8, 0x8B#8]) := by decide

theorem test_snap_unwritten_stops :
    exec .snap { State.reset with wptr := 1 } = .fault .unwrittenRead := rfl

theorem test_lit_1234_final :
    seen (.lit 4660) { State.reset with final := true } =
      some ([0x01#8, 0x12#8, 0x34#8, 0xED#8, 0xCB#8], 5, Err.clear, okData []) := by decide

theorem test_lit_65536_range_before_overflow :
    seen (.lit 65536) { State.reset with cap := some 4 } =
      some ([], 0, { valid := true, cause := 2#3, value := 0x00010000#32 },
        some { status := .fault, cause := 2#3, data := [] }) := by decide

theorem test_rep_bytes :
    (seen (.rep 20) State.reset).map Prod.fst = some [0xE2#8, 0x12#8, 0xE1#8, 0x12#8, 0x01#8] ∧
    (seen (.rep 200) { State.reset with final := true }).map Prod.fst = some [0x4B#8, 0x39#8, 0x91#8, 0x72#8, 0x02#8] ∧
    (seen (.rep 279) State.reset).map Prod.fst = some [0xEA#8, 0xA6#8, 0x77#8, 0xD3#8, 0x01#8] ∧
    (seen (.rep 287) State.reset).map Prod.fst = some [0xEA#8, 0x1F#8, 0xEF#8, 0x1F#8, 0x07#8] := by decide

theorem test_rep_out_of_range :
    seen (.rep 288) State.reset =
      some ([], 0, { valid := true, cause := 3#3, value := 288#32 },
        some { status := .fault, cause := 3#3, data := [] }) ∧
    (seen (.rep (-1)) State.reset).map (fun x => x.2.2.1.value) = some 0xFFFFFFFF#32 := by decide

theorem test_setfinal : (nextOf (exec (.setfinal true) State.reset)).map State.final = some true ∧
    (nextOf (exec (.setfinal true) faulted)).map State.final = some false := by decide

theorem test_getstat_in_fault_state :
    seen .getstat faulted = some ([0x1F#8, 0x8B#8], 2, faulted.err,
      okData [0x0A#8, 0x00#8, 0x01#8, 0x00#8, 0x00#8, 0#8, 0#8, 0#8, 0#8, 0#8, 0#8, 0#8, 2#8]) := by decide

theorem test_refused_in_fault_state :
    seen (.rep 288) faulted = some ([0x1F#8, 0x8B#8], 2, faulted.err,
      some { status := .refused, cause := 2#3, data := [] }) := by decide

theorem test_illegal_word :
    (nextOf (step (presenting State.reset [.word 0xFF12345678#40, .word 0x0500000000#40]))).map
      (fun t => (t.err, t.port)) =
      some ({ valid := true, cause := 4#3, value := 0x12345678#32 }, [.word 0x0500000000#40]) ∧
    (nextOf (step (presenting faulted [.word 0xFF00000000#40]))).map (fun t => (t.err, t.resp)) =
      some (faulted.err, some { status := .refused, cause := 2#3, data := [] }) := by decide

theorem test_reset_event : nextOf (step (presenting faulted [.reset, .word 0x100000FFFF#40])) =
    some (presenting State.reset [.word 0x100000FFFF#40]) := by decide

theorem test_scratch_account : (State.assemble (List.replicate 17 true) State.reset).2 = [0xFF#8, 0xFF#8, 0x01#8] := by
  decide

theorem test_onesComplement_sizes : onesComplement [0x01#8] = [0xFE#8] ∧
    onesComplement [0#8, 0#8, 1#8] = [0xFF#8, 0xFF#8, 0xFE#8] := by decide

theorem test_fixedCode : fixedCode (-1) = none ∧ fixedCode 143 = some ⟨0xBF, 8⟩ ∧ fixedCode 144 = some ⟨0x190, 9⟩ ∧
    fixedCode 255 = some ⟨0x1FF, 9⟩ ∧ fixedCode 256 = some ⟨0, 7⟩ ∧ fixedCode 279 = some ⟨0x17, 7⟩ ∧
    fixedCode 280 = some ⟨0xC0, 8⟩ ∧ fixedCode 287 = some ⟨0xC7, 8⟩ ∧ fixedCode 288 = none := by decide

/-! ## The host's notation (R67, R68, R142) -/

theorem test_assembly :
    parseLine ['W', 'B', 'Y', 'T', 'E', ' ', '0', 'x', '1', 'F', ' ', ';', 'x'] = some (some (.wbyte 31)) ∧
    parseLine ['L', 'I', 'T', ' ', '-', '1'] = some (some (.lit (-1))) ∧
    parseLine ['A', 'B', 'F', ' ', ' ', '0', '1', '0'] = some (some (.abf [false, true, false])) ∧
    parseLine ['W', 'B', 'Y', 'T', 'E', 'S', ' ', '1', 'F', ' ', '8', 'b'] = some (some (.wbytes [0x1F#8, 0x8B#8])) ∧
    parseLine [';', 'L', 'I', 'T'] = some none ∧
    parseLine ['R', 'E', 'P'] = none := by decide

/-- The listing of R142 and of spec/95 P3 has 34 commands, of them 19 `LIT` and 11 `REP` (log entry 16). -/
theorem test_hostSequence_counts : (hostSequence [] [] []).length = 34 ∧
    ((hostSequence [] [] []).filter fun i => i.op == .lit).length = 19 ∧
    ((hostSequence [] [] []).filter fun i => i.op == .rep).length = 11 ∧
    (hostPseudo [1#8] [] [])[4]? = some (.rept 6) := by decide

/-! ## Witnesses: the hypotheses of each statement are met -/

/-- One accepted command of each kind. -/
def samples : List Instr :=
  [.wbyte 255, .wbytes [7#8], .abf [true, false, true], .ocpl 0#8 5#8, .snap, .lit 65535, .rep 287, .setfinal true, .getstat]

theorem samples_ok : samples.all (fun i => answers .ok (exec i (holding [0x1F#8, 0x8B#8]))) = true := by decide

theorem witness_OkCommandsAppendTheStatedSizes (i : Instr) (h : i ∈ samples) :
    ∃ t r, exec i (holding [0x1F#8, 0x8B#8]) = .next t ∧ t.resp = some r ∧ r.status = .ok :=
  next_of_answers (List.all_eq_true.mp samples_ok i h)

theorem witness_StepKeepsInvariant : ∃ s t : State, s.Inv ∧ step s = .next t :=
  ⟨{ holding [0x1F#8, 0x8B#8] with port := encode (.lit 65535) }, _,
    ⟨holding_inv.buffer, holding_inv.scratch, holding_inv.clear, holding_inv.cause, holding_inv.capacity,
      holding_inv.response⟩, rfl⟩

theorem witness_StepKeepsMemoryCanonical :
    ∃ s t : State, Memory.wf s.mem = true ∧ s.mem ≠ [] ∧ step s = .next t :=
  ⟨{ State.reset with mem := [(1, 7#8), (9, 8#8)], wptr := 5, port := encode (.wbyte 0) }, _, rfl, by decide, rfl⟩

theorem witness_FinalIsWrittenOnlyBySetfinal :
    (∃ (i : Instr) (s t : State), (∀ f, i ≠ .setfinal f) ∧ exec i s = .next t) ∧
    ∃ s t : State, (∀ f rest, decode s.port ≠ .command (.setfinal f) rest) ∧ (∀ rest, s.port ≠ .reset :: rest) ∧
      step s = .next t :=
  ⟨⟨.rep 0, State.reset, _, by simp, rfl⟩,
    presenting State.reset [.word 0x0500000000#40], _, by
      intro f rest
      rw [show decode (presenting State.reset [.word 0x0500000000#40]).port = .command .snap [] by decide]
      simp, by simp [presenting], rfl⟩

theorem witness_FinalDoesNotReachWriterCommands :
    ∀ i ∈ [Instr.wbyte 255, .wbytes [7#8], .abf [true], .ocpl 0#8 5#8, .snap],
      ((∃ v, i = .wbyte v) ∨ (∃ d, i = .wbytes d) ∨ (∃ b, i = .abf b) ∨ (∃ x0 x1, i = .ocpl x0 x1) ∨ i = .snap) ∧
      answers .ok (exec i (holding [0x1F#8, 0x8B#8])) = true := by
  intro i hi
  simp only [List.mem_cons, List.not_mem_nil, or_false] at hi
  rcases hi with rfl | rfl | rfl | rfl | rfl <;> exact ⟨by simp, by decide⟩

theorem witness_NoStepChangesCapacity :
    (∃ t, step { presenting State.reset [.reset] with cap := some 7 } = .next t) ∧
    ∃ t, exec (.lit 0) { State.reset with cap := some 4 } = .next t := ⟨⟨_, rfl⟩, _, rfl⟩

theorem witness_BufferIsAppendOnly : ∃ s t : State, s.Inv ∧ (∀ rest, s.port ≠ .reset :: rest) ∧ step s = .next t ∧
    Memory.read s.mem 1 = some 0x8B#8 :=
  ⟨{ holding [0x1F#8, 0x8B#8] with port := encode (.rep 0) }, _,
    ⟨holding_inv.buffer, holding_inv.scratch, holding_inv.clear, holding_inv.cause, holding_inv.capacity,
      holding_inv.response⟩, by simp [encode], rfl, by decide⟩

theorem witness_BufferGrowsByTheOutputOfOkCommands :
    (holding [0x1F#8, 0x8B#8]).Inv ∧
    (∃ t r, exec (.abf [true]) (holding [0x1F#8, 0x8B#8]) = .next t ∧ t.resp = some r ∧ r.status = .ok) ∧
    ∃ t r, exec (.lit 65536) (holding [0x1F#8, 0x8B#8]) = .next t ∧ t.resp = some r ∧ r.status = .fault :=
  ⟨holding_inv, next_of_answers (by decide), next_of_answers (by decide)⟩

theorem witness_SnapStopsOnlyAtAnUnwrittenByte :
    (∃ s : State, exec .snap s = .fault .unwrittenRead) ∧
    (∃ s : State, ∃ a, a < s.wptr ∧ Memory.read s.mem a = none) ∧
    ∃ s : State, s.Inv ∧ 1 < s.wptr :=
  ⟨⟨{ State.reset with wptr := 1 }, rfl⟩, ⟨{ State.reset with wptr := 1 }, 0, by decide, rfl⟩, _, holding_inv, by decide⟩

theorem witness_DecodeInvertsEncode : (samples ++ [Instr.wbyte (-(2 ^ 31)), .lit (2 ^ 31 - 1), .rep (-1), .wbytes [], .abf []]).all
    (fun i => i.wellFormed) = true := by decide

theorem witness_DecodedCommandStoodEncoded :
    decode [.word 0x0300000001#40, .p1 true, .reset] = .command (.abf [true]) [.reset] := by decide

theorem witness_LegalWordsAreTheTableRows :
    Op.rowMatches .setfinal 0x2000000001#40 ∧ Op.rowMatches .ocpl 0x040000FFFF#40 := by
  constructor <;> simp only [Op.rowMatches, Op.tableRow] <;> decide

theorem witness_StepRunsTheDecodedCommand :
    decode (presenting State.reset [.word 0x1100000014#40]).port = .command (.rep 20) [] ∧
    (Instr.rep 20).wellFormed = true := by decide

theorem witness_CommandIsConsumedWithItsBeats : ∃ (s t : State) (rest : List PortItem),
    (Instr.wbytes [9#8]).wellFormed = true ∧ s.port = encode (.wbytes [9#8]) ++ rest ∧ step s = .next t ∧
      t.resp = some { status := .refused, cause := 2#3, data := [] } :=
  ⟨presenting faulted (encode (.wbytes [9#8]) ++ [.reset]), _, [.reset], by decide, rfl, rfl, rfl⟩

theorem witness_PlacedInstructionIsTheNextStep : decodeTableWord 40 0x0300000003 = some (.abf [false, false, false]) := by
  decide

theorem illegal_no_row (o : Op) : ¬ o.rowMatches 0x0400010005#40 := by
  cases o <;> simp only [Op.rowMatches, Op.tableRow] <;> decide

theorem witness_IllegalWordRaisesIllegalCommand : ∃ (s : State) (rest : List PortItem),
    s.port = .word 0x0400010005#40 :: rest ∧ (∀ o : Op, ¬ o.rowMatches 0x0400010005#40) ∧ s.err.valid = false :=
  ⟨presenting State.reset [.word 0x0400010005#40], [], rfl, illegal_no_row, rfl⟩

theorem witness_IllegalWordInFaultStateIsRefused : ∃ (s : State) (rest : List PortItem),
    s.port = .word 0x0400010005#40 :: rest ∧ (∀ o : Op, ¬ o.rowMatches 0x0400010005#40) ∧ s.err.valid = true :=
  ⟨presenting faulted [.word 0x0400010005#40], [], rfl, illegal_no_row, rfl⟩

theorem witness_WrongFramingIsRefused :
    Op.rowMatches .wbytes 0x0200000002#40 ∧ [3#8].length < (immField 0x0200000002#40).toNat ∧
    Op.rowMatches .abf 0x0300000001#40 ∧ ([] : List Bit).length < (immField 0x0300000001#40).toNat := by
  simp only [Op.rowMatches, Op.tableRow]
  decide

/-- U9, U10: a beat or a word of the wrong kind as the last item a word announces. -/
theorem test_beatOfWrongKind : ∀ ps ∈ [[PortItem.word 0x0200000002#40, .p8 3#8, .p1 true],
    [.word 0x0200000002#40, .p8 3#8, .word 0x0500000000#40], [.word 0x0300000002#40, .p1 true, .p8 3#8],
    [.word 0x0300000002#40, .p1 true, .word 0x0500000000#40]],
    step (presenting State.reset ps) = .refused (.framing .beatOfWrongKind) := by
  intro ps h
  simp only [List.mem_cons, List.not_mem_nil, or_false] at h
  rcases h with rfl | rfl | rfl | rfl <;> rfl

theorem witness_PaddingIsMinimal : (pack [true, false, true]).getLast? = some 0x05#8 ∧ 8 - padLength 3 ≤ 3 ∧
    (pack (List.replicate 8 true)).getLast? = some 0xFF#8 ∧ 8 - padLength 8 ≤ 8 := by decide

theorem witness_PackPlacesEachBitAsTheScratchDoes :
    (pack (List.replicate 9 true))[1]? = some 0x01#8 ∧ State.reset.acc = [] ∧ State.reset.cnt = 0 := by decide

theorem witness_ScratchHoldsAtMostSevenBits :
    let s := { State.reset with acc := List.replicate 7 true, cnt := 7 }
    s.acc.length = s.cnt ∧ s.cnt ≤ 7 := by decide

theorem witness_BigEndianBytesRoundTrip : 65535 < 256 ^ 2 := by decide

theorem witness_OnesComplementIsBytewiseAndInvolutive : [0x12#8, 0x34#8].length = 2 ∧ [0x12#8, 0x34#8][1]? = some 0x34#8 := by
  decide

theorem witness_LengthReadsTheSameOnlyForEqualBytes :
    (514 ≤ 65535 ∧ 514 / 256 = 514 % 256) ∧ (65535 ≤ 65535 ∧ ¬ 256 / 256 = 256 % 256) := by decide

/-- A buffer with room for one more byte, and a full one. -/
def roomOne : State := { holding [1#8, 2#8] with cap := some 3 }
def full : State := { holding [1#8, 2#8] with cap := some 2 }
def roomFive : State := { holding [1#8, 2#8] with cap := some 7 }

theorem witness_WbyteAppendsAByteOrFaults :
    roomOne.err.valid = false ∧ roomOne.fits 1 = true ∧ full.err.valid = false ∧ full.fits 1 = false ∧
    ((0 : Int) ≤ 255 ∧ (255 : Int) ≤ 255) ∧ (255 : Int) < 256 ∧ (-1 : Int) < 0 := by decide

theorem witness_WbytesAppendsVerbatim :
    roomOne.err.valid = false ∧ roomOne.fits [7#8].length = true ∧ full.err.valid = false ∧
    full.fits [7#8].length = false ∧ full.fits ([] : List Byte).length = true := by decide

theorem witness_AbfAppendsThePackedBits :
    roomOne.err.valid = false ∧ roomOne.fits ((8 + 7) / 8) = true ∧ roomOne.fits ((9 + 7) / 8) = false := by decide

theorem witness_OcplAnswersTheComplement : State.reset.err.valid = false := rfl

theorem witness_SnapAnswersTheBuffer : (holding [0x1F#8, 0x8B#8]).Inv ∧ faulted.Inv ∧ faulted.err.valid = true :=
  ⟨holding_inv, faulted_inv, rfl⟩

theorem witness_ReadsHaveNoSideEffect : ∃ t u, faulted.acc = [] ∧ faulted.cnt = 0 ∧ exec .snap faulted = .next t ∧
    exec .getstat faulted = .next u := ⟨_, _, rfl, rfl, rfl, rfl⟩

theorem witness_FixedCodeIsTheTable :
    ((-1 : Int) < 0 ∧ (287 : Int) < 288) ∧ ((0 : Int) ≤ 143 ∧ (143 : Int) ≤ 143) ∧ ((144 : Int) ≤ 144 ∧ (144 : Int) ≤ 255) ∧
    ((256 : Int) ≤ 279 ∧ (279 : Int) ≤ 279) ∧ ((280 : Int) ≤ 287 ∧ (287 : Int) ≤ 287) ∧
    State.reset.err.valid = false ∧ fixedCode 288 = none ∧ fixedCode (-1) = none := by decide

theorem witness_FixedCodeIsTotalAndPrefixFree : ∃ c, fixedCode ((287 : Nat) : Int) = some c ∧ c.bits <+: c.bits :=
  ⟨⟨199, 8⟩, by decide, List.prefix_rfl⟩

theorem witness_LitAppendsTheHeaderOrFaults :
    roomFive.err.valid = false ∧ roomFive.fits 5 = true ∧ roomOne.err.valid = false ∧ roomOne.fits 5 = false ∧
    ((0 : Int) ≤ 65535 ∧ (65535 : Int) ≤ 65535) ∧ (65535 : Int) < 65536 ∧ (-1 : Int) < 0 := by decide

theorem witness_LiteralHeaderReadsBack : ∃ t, exec (.lit 65535) roomFive = .next t ∧
    t.resp = some { status := .ok, cause := 0#3, data := [] } := ⟨_, rfl, rfl⟩

theorem witness_RepAppendsTheBlockOrFaults :
    roomFive.err.valid = false ∧ roomFive.fits 5 = true ∧ roomOne.err.valid = false ∧ roomOne.fits 5 = false ∧
    ((0 : Int) ≤ 287 ∧ (287 : Int) ≤ 287) ∧ (287 : Int) < 288 ∧ (-1 : Int) < 0 := by decide

theorem witness_RepAcceptsExactlyTheTableRange : roomFive.err.valid = false ∧ roomFive.fits 5 = true ∧
    fixedCode (279 / 2) = some ⟨187, 8⟩ ∧ fixedCode 279 = some ⟨23, 7⟩ := by decide

theorem witness_RepBlockReadsAsTwoIdenticalPairs : ∃ t, exec (.rep (287 : Nat)) roomFive = .next t ∧
    t.resp = some { status := .ok, cause := 0#3, data := [] } := ⟨_, rfl, rfl⟩

theorem witness_EncoderCopiesFinalIntoTheHeader : ∃ t u, exec (.lit 65535) roomFive = .next t ∧
    exec (.rep 287) roomFive = .next u ∧ t.resp = some { status := .ok, cause := 0#3, data := [] } ∧
    u.resp = some { status := .ok, cause := 0#3, data := [] } := ⟨_, _, rfl, rfl, rfl, rfl⟩

theorem witness_UnitIsWhatLitAppends : roomFive.err.valid = false ∧ roomFive.fits unit = true := by decide

theorem witness_SetfinalWritesTheFlag : roomFive.err.valid = false := rfl

theorem witness_GetstatAnswersTheRegisters : full.wptr < 2 ^ 64 := by decide

theorem witness_FaultStateRefusesCommands : faulted.err.valid = true ∧ (samples.filter fun i => !i.readsOnly).length = 7 := by
  decide

theorem witness_FaultStateIsLeftOnlyByReset : ∃ s t : State, s.err.valid = true ∧ (∀ rest, s.port ≠ .reset :: rest) ∧
    step s = .next t :=
  ⟨presenting faulted [.word 0xFF00000000#40], _, rfl, by simp [presenting], rfl⟩

theorem witness_FaultingCommandWritesNothing : ∃ t r, exec (.wbyte 256) full = .next t ∧ t.resp = some r ∧
    r.status = .fault := next_of_answers (by decide)

theorem witness_LithdrHasTheStatedFields : 65535 ≤ 65535 ∧ roomFive.err.valid = false ∧ roomFive.fits 5 = true := by
  decide

theorem witness_LitKeepsNothingOfTheLength : ∃ t u, exec (.lit (65535 : Nat)) roomFive = .next t ∧
    exec (.lit (0 : Nat)) roomFive = .next u ∧ t.resp = some { status := .ok, cause := 0#3, data := [] } :=
  ⟨_, _, rfl, rfl, rfl⟩

theorem witness_FaultingCommandAppendsNothing : ∃ t, exec (.abf [true]) full = .next t ∧ full.err.valid = false ∧
    t.err.valid = true := ⟨_, rfl, rfl, rfl⟩

theorem witness_FaultsHaveTheStatedPriority :
    faulted.err.valid = true ∧ full.err.valid = false ∧ (Instr.wbyte 256).accepted = false ∧
    (Instr.lit 65536).accepted = false ∧ (Instr.rep (-1)).accepted = false ∧ (Instr.rep 287).appends = true ∧
    (Instr.rep 287).accepted = true ∧ full.fits ((Instr.rep 287).output full.final).length = false ∧
    (Instr.lit 65535).accepted = true ∧ full.fits ((Instr.lit 65535).output full.final).length = false := by decide

theorem witness_OverflowExactlyBeyondCapacity :
    full.err.valid = false ∧ (Instr.wbyte 0).appends = true ∧ (Instr.wbyte 0).accepted = true ∧ full.cap = some 2 ∧
    2 < full.wptr + ((Instr.wbyte 0).output full.final).length ∧ roomOne.cap = some 3 ∧
    ¬ 3 < roomOne.wptr + ((Instr.wbyte 0).output roomOne.final).length ∧ State.reset.cap = none := by decide

theorem witness_EveryCommandHasOneOfThreeOutcomes :
    (holding [0x1F#8, 0x8B#8]).Inv ∧ answers .ok (exec .snap faulted) = true ∧
    answers .fault (exec (.rep 288) (holding [0x1F#8, 0x8B#8])) = true ∧ answers .refused (exec (.rep 0) faulted) = true :=
  ⟨holding_inv, by decide, by decide, by decide⟩

theorem witness_ResultNeedsAFaultFreeRun : (holding [0x1F#8, 0x8B#8]).Inv ∧ faulted.Inv :=
  ⟨holding_inv, faulted_inv⟩

theorem witness_ResetEventRestoresTheResetState : (presenting faulted [.reset, .p1 true]).port = .reset :: [.p1 true] := rfl

theorem witness_IdleStepRetainsTheState : (holding [0x1F#8, 0x8B#8]).port = [] := rfl

end Sys2Proof.Tests
end

/-! # Proofs of the statements of spec/00_scope.md -/

namespace Sys2Proof.Machine

/-! ## What no command and no step changes -/

/-- No command writes `cap` or takes items from `port`. -/
theorem Did.cap_port {i : Instr} {s t : State} (h : Did i s t) : t.cap = s.cap ∧ t.port = s.port := by
  cases h with
  | refused _ _ ht => simp [ht]
  | faulted _ _ _ ht => simp [ht]
  | appended _ _ _ _ ht => simp [ht]
  | answered _ _ _ _ _ ht => simp [ht]
  | flagged _ _ _ ht => simp [ht]

/-- No step writes `cap`, not even the reset event. -/
theorem Stepped.cap {s t : State} (h : Stepped s t) : t.cap = s.cap := by
  cases h with
  | idle _ ht => rw [ht]
  | reset _ _ ht => simp [ht]
  | command _ _ _ ht => exact ht.cap_port.1
  | illegalRefused _ _ _ _ _ ht => simp [ht]
  | illegalFaulted _ _ _ _ _ ht => simp [ht]

/-- Settles O8, by cases on what a step and what a command can do. -/
theorem noStepChangesCapacity : Obligations.NoStepChangesCapacity :=
  ⟨fun s t h => (step_did s t h).cap, fun i s t h => (exec_did i s t h).cap_port⟩

/-! ## Big-endian byte sequences -/

theorem fromBe_lt (s : List Byte) : fromBe s < 256 ^ s.length := by
  induction s with
  | nil => simp
  | cons b s ih =>
    have hb : b.toNat + 1 ≤ 256 := b.isLt
    calc fromBe (b :: s) = b.toNat * 256 ^ s.length + fromBe s := fromBe_cons b s
      _ < (b.toNat + 1) * 256 ^ s.length := by rw [Nat.add_one_mul]; omega
      _ ≤ 256 * 256 ^ s.length := Nat.mul_le_mul_right _ hb
      _ = 256 ^ (b :: s).length := by rw [List.length_cons, Nat.pow_succ']

/-- Byte sequences of one length stand for different integers. -/
theorem fromBe_inj {s t : List Byte} (hl : s.length = t.length) (h : fromBe s = fromBe t) : s = t := by
  induction s generalizing t with
  | nil => exact (List.length_eq_zero_iff.mp hl.symm).symm
  | cons b s ih =>
    cases t with
    | nil => simp at hl
    | cons c t =>
      have hl' : s.length = t.length := by simpa using hl
      have hs := fromBe_lt s
      have ht := fromBe_lt t
      rw [fromBe_cons, fromBe_cons, ← hl', Nat.mul_comm b.toNat, Nat.mul_comm c.toNat] at h
      rw [← hl'] at ht
      have hbc : b.toNat = c.toNat := by
        have hdiv := congrArg (· / 256 ^ s.length) h
        have hpos : 0 < 256 ^ s.length := by positivity
        simpa [Nat.mul_add_div hpos, Nat.div_eq_of_lt hs, Nat.div_eq_of_lt ht] using hdiv
      rw [BitVec.eq_of_toNat_eq hbc, ih hl' (by rw [hbc] at h; omega)]

/-- `be_N` keeps the low `N` bytes of an integer. -/
theorem fromBe_be (n v : Nat) : fromBe (be n v) = v % 256 ^ n := by
  induction n with
  | zero => simp [be, Nat.mod_one]
  | succ n ih =>
    have hshift : v >>> (8 * n) = v / 256 ^ n := by rw [Nat.shiftRight_eq_div_pow, Nat.pow_mul]
    rw [be_succ, fromBe_cons, be_length, ih, BitVec.toNat_ofNat, hshift, Nat.mod_pow_succ (b := 256)]
    ring

/-- Encoding the integer of a byte sequence at the sequence's length gives it back. -/
theorem be_fromBe (s : List Byte) : be s.length (fromBe s) = s :=
  fromBe_inj (be_length _ _) (by rw [fromBe_be, Nat.mod_eq_of_lt (fromBe_lt s)])

/-- The two-byte form of R13. -/
theorem be_two (v : Nat) : be 2 v = [BitVec.ofNat 8 (v / 256), BitVec.ofNat 8 (v % 256)] := by
  have hlow : BitVec.ofNat 8 (v % 256) = BitVec.ofNat 8 v := BitVec.eq_of_toNat_eq (by simp)
  rw [hlow, be_succ, be_succ, Nat.shiftRight_eq_div_pow]
  rfl

/-- Settles O26: `fromBe_be` one way, `be_fromBe` the other. -/
theorem bigEndianBytesRoundTrip : Obligations.BigEndianBytesRoundTrip :=
  ⟨fun n v h => ⟨be_length n v, by rw [fromBe_be, Nat.mod_eq_of_lt h]⟩,
    fun v => ⟨fromBe_lt v, be_fromBe v⟩, fun v _ => be_two v⟩

/-! ## Reading the whole buffer -/

/-- Where the addresses are consecutive from `a` on, address `a + i` holds the byte of cell `i`. -/
theorem Memory.read_of_consecutive {m : Memory} {a n : Nat} (h : m.map Prod.fst = List.range' a n) (i : Nat)
    (hi : i < (m.map Prod.snd).length) : Memory.read m (a + i) = some (m.map Prod.snd)[i] := by
  induction m generalizing a n i with
  | nil => simp at hi
  | cons c m ih =>
    obtain ⟨x, y⟩ := c
    cases n with
    | zero => simp at h
    | succ n =>
      simp only [List.map_cons, List.range'_succ, List.cons.injEq] at h
      obtain ⟨rfl, hm⟩ := h
      cases i with
      | zero => simp [Memory.read]
      | succ i =>
        have hrec := ih hm i (by simpa using hi)
        rw [Nat.add_assoc, Nat.add_comm 1 i] at hrec
        simpa [Memory.read] using hrec

/-- From a state that meets the invariant, reading all of `BUF` answers its content. -/
theorem State.Inv.memRead_all {s : State} (hs : s.Inv) : s.memRead 0 s.wptr = some s.contents := by
  have hbuf := hs.buffer
  have hlen : s.contents.length = s.wptr := by
    simpa [State.contents] using congrArg List.length hbuf
  rw [List.range_eq_range'] at hbuf
  exact (s.memRead_eq_some _ _ _).mpr ⟨by omega, hlen, Memory.read_of_consecutive hbuf⟩

/-- Settles O53: without a fault the result is the read of all of `BUF`. -/
theorem resultNeedsAFaultFreeRun : Obligations.ResultNeedsAFaultFreeRun := fun s hs =>
  ⟨fun hv => by simp [State.result, hv], fun hv => by simp [State.result, hv, hs.memRead_all]⟩

/-! ## The three outcomes -/

/-- From a state that meets the invariant no command stops: only `SNAP` could, and its read answers. -/
theorem exec_next_of_inv (i : Instr) {s : State} (hs : s.Inv) : ∃ t, exec i s = .next t := by
  cases i with
  | snap => exact ⟨s.ok s.contents, by simp [exec, execSnap, hs.memRead_all]⟩
  | wbyte v => exact ⟨_, rfl⟩
  | wbytes data => exact ⟨_, rfl⟩
  | abf bits => exact ⟨_, rfl⟩
  | ocpl x0 x1 => exact ⟨_, rfl⟩
  | lit n => exact ⟨_, rfl⟩
  | rep n => exact ⟨_, rfl⟩
  | setfinal f => exact ⟨_, rfl⟩
  | getstat => exact ⟨_, rfl⟩

theorem ok_response_wellFormed (data : List Byte) :
    Response.wellFormed { status := .ok, cause := 0#3, data := data } = true := rfl

theorem fault_response_wellFormed (c : FaultCause) :
    Response.wellFormed { status := .fault, cause := c.code, data := [] } = true := by
  cases c <;> rfl

theorem State.Inv.refused_response_wellFormed {s : State} (hs : s.Inv) (hv : s.err.valid = true) :
    Response.wellFormed { status := .refused, cause := s.err.cause, data := [] } = true := by
  simp [Response.wellFormed, hs.cause hv]

/-- Settles O52: the command answers (`exec_next_of_inv`), and what it did (`exec_did`) fixes its outcome. -/
theorem everyCommandHasOneOfThreeOutcomes : Obligations.EveryCommandHasOneOfThreeOutcomes := by
  intro i s hs
  obtain ⟨t, ht⟩ := exec_next_of_inv i hs
  refine ⟨t, ?_⟩
  cases exec_did i s t ht with
  | refused hv hi h =>
    subst h
    exact ⟨_, ht, rfl, hs.refused_response_wellFormed hv, rfl, rfl, hv, rfl, hi⟩
  | faulted c value hv h =>
    subst h
    exact ⟨_, ht, rfl, fault_response_wellFormed c, rfl, rfl, hv, rfl, rfl⟩
  | appended hv _ _ _ h =>
    subst h
    exact ⟨_, ht, rfl, ok_response_wellFormed _, rfl, rfl, rfl, by simp [hv]⟩
  | answered data hv _ _ _ h =>
    subst h
    exact ⟨_, ht, rfl, ok_response_wellFormed _, rfl, rfl, rfl, fun h => hv.resolve_right (by simp [h])⟩
  | flagged f hv _ h =>
    subst h
    exact ⟨_, ht, rfl, ok_response_wellFormed _, rfl, rfl, rfl, by simp [hv]⟩

/-! ## The step and the decoder -/

theorem step_of_decode_command {s : State} {i : Instr} {rest : List PortItem} (h : decode s.port = .command i rest) :
    step s = exec i { s with port := rest } := by
  simp [step, h]

/-- Settles O17, by `step_of_decode_command`: a decoded command needs no further check. -/
theorem stepRunsTheDecodedCommand : Obligations.StepRunsTheDecodedCommand :=
  fun _ _ _ h _ => step_of_decode_command h

/-! ## `UNIT` -/

/-- A literal header has one header byte and two fields of two bytes (R72). -/
theorem literalBytes_length (f : Bit) (n : Nat) : (literalBytes f n).length = 5 := by
  simp [literalBytes]

theorem unit_eq_five : unit = 5 := literalBytes_length false 0

/-- A legal `LIT` with room appends its header and answers ok. -/
theorem exec_lit_of_fits {n : Int} {s : State} (h0 : 0 ≤ n) (h1 : n ≤ 65535) (hv : s.err.valid = false)
    (hf : s.fits unit = true) :
    exec (.lit n) s = .next ((s.append (literalBytes s.final n.toNat)).ok []) := by
  have hrange : ¬ (n < 0 ∨ n > Config.lenMax) := by simp only [Config.lenMax, Config.lenBits]; omega
  rw [unit_eq_five] at hf
  simp [exec, execLit, hv, hrange, State.appendCommand, literalBytes_length, hf]

/-- Settles O43: every literal header has five bytes, and `LIT` appends one. -/
theorem unitIsWhatLitAppends : Obligations.UnitIsWhatLitAppends :=
  ⟨unit_eq_five, fun f n => (literalBytes_length f n).trans unit_eq_five.symm, fun n s h0 h1 hv hf =>
    ⟨_, exec_lit_of_fits h0 h1 hv hf, by simp [literalBytes_length, unit_eq_five]⟩⟩

end Sys2Proof.Machine

/-! # Proofs of the statements of spec/10_state.md -/

namespace Sys2Proof.Machine

/-! ## Reset -/

/-- Settles O1: R33's values are the fields of `State.reset`. -/
theorem resetLeavesTheStatedValues : Obligations.ResetLeavesTheStatedValues :=
  ⟨fun _ => rfl, rfl, rfl, rfl, rfl, rfl⟩

/-- A reset event reaches a state that meets the invariant from every state, good or not (R180). -/
theorem State.inv_applyReset (s : State) : s.applyReset.Inv where
  buffer := rfl
  scratch := ⟨rfl, rfl⟩
  clear _ := ⟨rfl, rfl⟩
  cause h := by simp [Err.clear] at h
  capacity := by simp [State.fits_iff]
  response r h := by simp at h

/-- Settles O2: the reset state is where a reset event in it leads. -/
theorem resetMeetsInvariant : Obligations.ResetMeetsInvariant := State.reset.inv_applyReset

/-! ## The invariant under the named updates -/

/-- Every cause of R150 has a code in R32's range. -/
theorem FaultCause.code_range (c : FaultCause) : 1 ≤ c.code.toNat ∧ c.code.toNat ≤ 5 := by
  cases c <;> decide

namespace State.Inv

variable {s : State}

/-- The port is no concern of the invariant. -/
theorem with_port (hs : s.Inv) (ps : List PortItem) : ({ s with port := ps } : State).Inv :=
  { hs with }

/-- The final flag is no concern of the invariant. -/
theorem with_final (hs : s.Inv) (f : Bit) : ({ s with final := f } : State).Inv :=
  { hs with }

/-- A response that R66 describes, and that names only a recorded fault, keeps the invariant. -/
theorem respond (hs : s.Inv) {r : Response} (hr : r.wellFormed = true)
    (hf : r.status ≠ .ok → s.err.valid = true ∧ s.err.cause = r.cause) : (s.respond r).Inv where
  buffer := hs.buffer
  scratch := ⟨rfl, rfl⟩
  clear := hs.clear
  cause := hs.cause
  capacity := hs.capacity
  response r' h := by
    obtain rfl : r = r' := by simpa using h
    exact ⟨hr, hf⟩

theorem ok (hs : s.Inv) (data : List Byte) : (s.ok data).Inv :=
  hs.respond (ok_response_wellFormed data) fun h => absurd rfl h

theorem refuse (hs : s.Inv) (hv : s.err.valid = true) : s.refuse.Inv :=
  hs.respond (hs.refused_response_wellFormed hv) fun _ => ⟨hv, rfl⟩

/-- Recording the first fault keeps the invariant: no response before it names a fault (R155). -/
theorem with_fault (hs : s.Inv) (hv : s.err.valid = false) (c : FaultCause) (value : Imm) :
    ({ s with err := { valid := true, cause := c.code, value := value } } : State).Inv :=
  { hs with
    clear := fun h => by simp at h
    cause := fun _ => c.code_range
    response := fun r h => by
      obtain ⟨hr, hf⟩ := hs.response r h
      exact ⟨hr, fun hne => absurd (hf hne).1 (by simp [hv])⟩ }

theorem takeFault (hs : s.Inv) (hv : s.err.valid = false) (c : FaultCause) (value : Imm) :
    (s.takeFault c value).Inv :=
  (hs.with_fault hv c value).respond (fault_response_wellFormed c) fun _ => ⟨rfl, rfl⟩

/-- Every listed address is below `WPTR`, so an append puts its cells after all of them. -/
theorem append_mem (hs : s.Inv) (v : List Byte) :
    (s.append v).mem = s.mem ++ (List.range' s.wptr v.length).zip v :=
  Memory.writeSeq_beyond v s.mem s.wptr fun z hz => by simpa [hs.buffer] using hz

/-- An append that passed its capacity check keeps the invariant (R41). -/
theorem append (hs : s.Inv) {v : List Byte} (hf : s.fits v.length = true) : (s.append v).Inv :=
  { hs with
    buffer := by
      rw [hs.append_mem, List.map_append, hs.buffer, List.map_fst_zip (by simp), List.range_eq_range',
        List.range_eq_range', State.append_wptr, ← List.range'_append_1, Nat.zero_add]
    capacity := by simpa [State.fits_iff] using hf }

/-- Under the invariant the list of cells has one cell for each address below `WPTR`. -/
theorem mem_length (hs : s.Inv) : s.mem.length = s.wptr := by
  simpa using congrArg List.length hs.buffer

end State.Inv

/-! ## The invariant over commands and steps -/

/-- What a command does keeps the invariant. -/
theorem Did.inv {i : Instr} {s t : State} (h : Did i s t) (hs : s.Inv) : t.Inv := by
  cases h with
  | refused hv _ ht => exact ht ▸ hs.refuse hv
  | faulted c value hv ht => exact ht ▸ hs.takeFault hv c value
  | appended _ _ _ hf ht => exact ht ▸ (hs.append hf).ok []
  | answered data _ _ _ _ ht => exact ht ▸ hs.ok data
  | flagged f _ _ ht => exact ht ▸ (hs.with_final f).ok []

/-- What a step does keeps the invariant. -/
theorem Stepped.inv {s t : State} (h : Stepped s t) (hs : s.Inv) : t.Inv := by
  cases h with
  | idle _ ht => exact ht ▸ hs
  | reset rest _ ht => exact ht ▸ State.inv_applyReset _
  | command i rest _ ht => exact ht.inv (hs.with_port rest)
  | illegalRefused w rest _ _ hv ht => exact ht ▸ (hs.with_port rest).refuse hv
  | illegalFaulted w rest _ _ hv ht => exact ht ▸ (hs.with_port rest).takeFault hv .illegalCommand _

/-- Settles O3: whatever a step does (`step_did`) is made of updates that each keep the invariant. -/
theorem stepKeepsInvariant : Obligations.StepKeepsInvariant :=
  fun s t hs h => (step_did s t h).inv hs

/-! ## The final flag -/

/-- Of all that a command can do, only `SETFINAL` writes the flag. -/
theorem Did.final {i : Instr} {s t : State} (h : Did i s t) (hn : ∀ f, i ≠ .setfinal f) : t.final = s.final := by
  cases h with
  | refused _ _ ht => simp [ht]
  | faulted _ _ _ ht => simp [ht]
  | appended _ _ _ _ ht => simp [ht]
  | answered _ _ _ _ _ ht => simp [ht]
  | flagged f _ hi _ => exact absurd hi (hn f)

/-- A step that is neither a `SETFINAL` nor the reset event keeps the flag. -/
theorem Stepped.final {s t : State} (h : Stepped s t)
    (hn : ∀ f rest, decode s.port ≠ .command (.setfinal f) rest) (hr : ∀ rest, s.port ≠ .reset :: rest) :
    t.final = s.final := by
  cases h with
  | idle _ ht => rw [ht]
  | reset rest hp _ => exact absurd hp (hr rest)
  | command i rest hp ht => exact ht.final fun f hi => hn f rest (hi ▸ hp)
  | illegalRefused _ _ _ _ _ ht => simp [ht]
  | illegalFaulted _ _ _ _ _ ht => simp [ht]

/-- Settles O6, by cases on what a command and what a step can do. -/
theorem finalIsWrittenOnlyBySetfinal : Obligations.FinalIsWrittenOnlyBySetfinal :=
  ⟨fun i s t hn h => (exec_did i s t h).final hn, fun s t hn hr h => (step_did s t h).final hn hr⟩

/-! ## The buffer only grows -/

/-- Cells added at the end hide no value. -/
theorem Memory.read_append_of_some {m : Memory} {a : Nat} {b : Byte} (h : Memory.read m a = some b) (m' : Memory) :
    Memory.read (m ++ m') a = some b := by
  induction m with
  | nil => simp [Memory.read] at h
  | cons c m ih =>
    simp only [Memory.read, List.cons_append] at h ⊢
    split at h
    · next hx => rw [if_pos hx, h]
    · next hx => rw [if_neg hx, ih h]

/-- A command leaves the cells already listed in front. -/
theorem Did.mem_prefix {i : Instr} {s t : State} (h : Did i s t) (hs : s.Inv) : s.mem <+: t.mem := by
  cases h with
  | refused _ _ ht => simp [ht]
  | faulted _ _ _ ht => simp [ht]
  | appended _ _ _ _ ht => exact ht ▸ ⟨_, (hs.append_mem _).symm⟩
  | answered _ _ _ _ _ ht => simp [ht]
  | flagged _ _ _ ht => simp [ht]

/-- A step that is not the reset event leaves the cells already listed in front. -/
theorem Stepped.mem_prefix {s t : State} (h : Stepped s t) (hs : s.Inv) (hr : ∀ rest, s.port ≠ .reset :: rest) :
    s.mem <+: t.mem := by
  cases h with
  | idle _ ht => rw [ht]
  | reset rest hp _ => exact absurd hp (hr rest)
  | command i rest _ ht => exact ht.mem_prefix (hs.with_port rest)
  | illegalRefused _ _ _ _ _ ht => simp [ht]
  | illegalFaulted _ _ _ _ _ ht => simp [ht]

/-- Settles O9: the list of cells only grows at its end, and under the invariant `WPTR` is its length. -/
theorem bufferIsAppendOnly : Obligations.BufferIsAppendOnly := by
  intro s t hs hr h
  have hstep := step_did s t h
  have hpre := hstep.mem_prefix hs hr
  refine ⟨hpre.map Prod.snd, ?_, fun a b hb => ?_⟩
  · rw [← hs.mem_length, ← (hstep.inv hs).mem_length]
    exact hpre.length_le
  · obtain ⟨m', hm⟩ := hpre
    exact hm ▸ Memory.read_append_of_some hb m'

/-! ## The header of a block -/

/-- An appending command that answered ok appended its output. -/
theorem Did.appended_of_ok {i : Instr} {s t : State} (h : Did i s t) (hi : i.appends = true) {data : List Byte}
    (hr : t.resp = some { status := .ok, cause := 0#3, data := data }) :
    t = (s.append (i.output s.final)).ok [] := by
  cases h with
  | refused _ _ ht => simp [ht] at hr
  | faulted _ _ _ ht => simp [ht] at hr
  | appended _ _ _ _ ht => exact ht
  | answered _ _ hn => simp [hi] at hn
  | flagged f _ hset => simp [hset, Instr.appends] at hi

/-- An appending command that answered ok left `FINAL` alone, and the first byte of its output stands at the old `WPTR`. -/
theorem Did.first_byte_of_ok {i : Instr} {s t : State} (h : Did i s t) (hi : i.appends = true) {data : List Byte}
    (hr : t.resp = some { status := .ok, cause := 0#3, data := data }) {b : Byte}
    (hb : (i.output s.final)[0]? = some b) : t.final = s.final ∧ Memory.read t.mem s.wptr = some b := by
  obtain ⟨hlt, rfl⟩ := List.getElem?_eq_some_iff.mp hb
  rw [h.appended_of_ok hi hr]
  exact ⟨rfl, Memory.read_writeSeq_inside _ _ _ 0 hlt⟩

/-- The header of a stored block alone fills one byte, of value `FINAL` (R72). -/
theorem pack_hdr_stored (f : Bit) : pack (hdr f btypeStored) = [BitVec.ofNat 8 f.toNat] := by
  cases f <;> rfl

theorem literalBytes_first_byte (f : Bit) (n : Nat) : (literalBytes f n)[0]? = some (BitVec.ofNat 8 f.toNat) := by
  simp [literalBytes, pack_hdr_stored]

/-- The first byte of a packed sequence takes its first eight bits, padded (R76). -/
theorem pack_getElem?_zero {bs : List Bit} (h : bs ≠ []) :
    (pack bs)[0]? = some (byteOfBits ((bs ++ List.replicate (padLength bs.length) false).take 8)) := by
  have hpos : 0 < bs.length := List.length_pos_iff.mpr h
  simp [pack, show 0 < (bs.length + 7) / 8 by omega]

/-- The low three bits of a byte are the first three bits it was assembled from (R44). -/
theorem byteOfBits_mod_eight (b0 b1 b2 : Bit) (bs : List Bit) :
    (byteOfBits (b0 :: b1 :: b2 :: bs)).toNat % 8 = b0.toNat + 2 * b1.toNat + 4 * b2.toNat := by
  have h0 := b0.toNat_le
  have h1 := b1.toNat_le
  have h2 := b2.toNat_le
  simp only [byteOfBits, bitsValue, BitVec.toNat_ofNat]
  omega

/-- The first three bits of a fixed-Huffman block are `FINAL` and the two bits of `BTYPE` 01 (R71, R73). -/
theorem repeatBits_eq_cons (f : Bit) (l d : CodeWord) :
    repeatBits f l d = f :: true :: false :: (l.bits ++ d.bits ++ l.bits ++ d.bits) := rfl

theorem pack_repeatBits_first_byte (f : Bit) (l d : CodeWord) :
    ∃ b, (pack (repeatBits f l d))[0]? = some b ∧ b.toNat % 8 = f.toNat + 2 := by
  rw [repeatBits_eq_cons]
  exact ⟨_, pack_getElem?_zero (List.cons_ne_nil _ _), byteOfBits_mod_eight f true false _⟩

/-- Settles O42: the first byte a command appends is the first byte of its output, which begins with the header. -/
theorem encoderCopiesFinalIntoTheHeader : Obligations.EncoderCopiesFinalIntoTheHeader := by
  intro n s t
  constructor
  · intro h hr
    obtain ⟨hfinal, hread⟩ :=
      (exec_did _ _ _ h).first_byte_of_ok rfl hr (literalBytes_first_byte s.final n.toNat)
    exact ⟨hfinal, _, hread, by cases s.final <;> rfl⟩
  · intro h hr
    obtain ⟨b, hb, hlow⟩ := pack_repeatBits_first_byte s.final (fixedCodeRow (n / 2).toNat) (fixedCodeRow n.toNat)
    obtain ⟨hfinal, hread⟩ := (exec_did _ _ _ h).first_byte_of_ok rfl hr hb
    exact ⟨hfinal, b, hread, hlow⟩

/-! ## The scratch space -/

/-- Settles O5: every outcome is a response, which clears the scratch space, and nothing before it reads the scratch
space. -/
theorem scratchLeftBehindIsNotRead : Obligations.ScratchLeftBehindIsNotRead := by
  intro i s bits k
  cases i with
  | wbyte v => rfl
  | wbytes data => rfl
  | abf bits => rfl
  | ocpl x0 x1 => rfl
  | snap => rfl
  | lit n => rfl
  | rep n => rfl
  | setfinal f => rfl
  | getstat => rfl

/-- The eighth bit completes a byte and empties the scratch space (R93). -/
theorem State.pushBit_of_seven {s : State} (b : Bit) (h : s.cnt = 7) :
    s.pushBit b = (s.clearScratch, [byteOfBits (s.acc ++ [b])]) := by
  simp [State.pushBit, h]

/-- Any other bit is kept in the scratch space, and no byte comes out (R93). -/
theorem State.pushBit_of_ne_seven {s : State} (b : Bit) (h : s.cnt ≠ 7) :
    s.pushBit b = ({ s with acc := s.acc ++ [b], cnt := s.cnt + 1 }, []) := by
  simp [State.pushBit, h]

/-- Settles O24, by whether the pushed bit is the eighth. -/
theorem scratchHoldsAtMostSevenBits : Obligations.ScratchHoldsAtMostSevenBits := by
  intro s b hlen hle
  by_cases h : s.cnt = 7
  · simp [State.pushBit_of_seven b h, h]
  · rw [State.pushBit_of_ne_seven b h]
    exact ⟨by simp [hlen], Nat.lt_of_le_of_ne hle h, by simp [h]⟩

end Sys2Proof.Machine

/-! # Proofs of the statements of spec/20_memory.md -/

namespace Sys2Proof.Machine

/-! ## The canonical form of the buffer -/

/-- What a command does to `BUF` keeps its canonical form. -/
theorem Did.mem_wf {i : Instr} {s t : State} (h : Did i s t) (hs : Memory.wf s.mem = true) :
    Memory.wf t.mem = true := by
  cases h with
  | refused _ _ ht => exact ht ▸ hs
  | faulted _ _ _ ht => exact ht ▸ hs
  | appended _ _ _ _ ht => exact ht ▸ Memory.wf_append s _ hs
  | answered _ _ _ _ _ ht => exact ht ▸ hs
  | flagged _ _ _ ht => exact ht ▸ hs

/-- What a step does to `BUF` keeps its canonical form. -/
theorem Stepped.mem_wf {s t : State} (h : Stepped s t) (hs : Memory.wf s.mem = true) : Memory.wf t.mem = true := by
  cases h with
  | idle _ ht => exact ht ▸ hs
  | reset _ _ ht => exact ht ▸ Memory.wf_reset
  | command _ _ _ ht => exact ht.mem_wf hs
  | illegalRefused _ _ _ _ _ ht => exact ht ▸ hs
  | illegalFaulted _ _ _ _ _ ht => exact ht ▸ hs

/-- Settles O4, by cases on what a step can do: an append keeps the canonical form and a reset starts it again. -/
theorem stepKeepsMemoryCanonical : Obligations.StepKeepsMemoryCanonical :=
  fun s t hs h => (step_did s t h).mem_wf hs

/-! ## What a command adds to the buffer -/

/-- Under the invariant an append puts its bytes after the content. -/
theorem State.Inv.contents_append {s : State} (hs : s.Inv) (v : List Byte) :
    (s.append v).contents = s.contents ++ v := by
  rw [State.contents, hs.append_mem, List.map_append, List.map_snd_zip (by simp), State.contents]

/-- Settles O10: of all that a command can do only `appended` writes `BUF`, and every other outcome that answers ok is
of a command without output. -/
theorem bufferGrowsByTheOutputOfOkCommands : Obligations.BufferGrowsByTheOutputOfOkCommands := by
  intro i s t r hs h hr
  cases exec_did i s t h with
  | refused _ _ ht =>
    subst ht
    obtain rfl := Option.some.inj hr
    exact ⟨nofun, fun _ => rfl⟩
  | faulted _ _ _ ht =>
    subst ht
    obtain rfl := Option.some.inj hr
    exact ⟨nofun, fun _ => rfl⟩
  | appended _ _ _ _ ht =>
    subst ht
    obtain rfl := Option.some.inj hr
    exact ⟨fun _ => hs.contents_append _, fun hne => absurd rfl hne⟩
  | answered _ _ _ ho _ ht =>
    subst ht
    exact ⟨fun _ => by rw [ho, List.append_nil]; rfl, fun _ => rfl⟩
  | flagged _ _ hi ht =>
    subst hi ht
    exact ⟨fun _ => (List.append_nil _).symm, fun _ => rfl⟩

/-- A command that answered ok moved `WPTR` by the length of its output. -/
theorem Did.wptr_of_ok {i : Instr} {s t : State} (h : Did i s t) {data : List Byte}
    (hr : t.resp = some { status := .ok, cause := 0#3, data := data }) :
    t.wptr = s.wptr + (i.output s.final).length := by
  cases h with
  | refused _ _ ht => simp [ht] at hr
  | faulted _ _ _ ht => simp [ht] at hr
  | appended _ _ _ _ ht => simp [ht]
  | answered _ _ _ ho _ ht => simp [ht, ho]
  | flagged _ _ hi ht => simp [ht, hi, Instr.output]

/-- An appending command answers ok only for an operand it accepts. -/
theorem Did.accepted_of_ok {i : Instr} {s t : State} (h : Did i s t) (hi : i.appends = true) {data : List Byte}
    (hr : t.resp = some { status := .ok, cause := 0#3, data := data }) : i.accepted = true := by
  cases h with
  | refused _ _ ht => simp [ht] at hr
  | faulted _ _ _ ht => simp [ht] at hr
  | appended _ _ ha _ _ => exact ha
  | answered _ _ hn => simp [hi] at hn
  | flagged f _ hset => simp [hset, Instr.appends] at hi

/-- The operands `WBYTE` accepts (R63, R91). -/
theorem accepted_wbyte_iff (v : Int) : (Instr.wbyte v).accepted = true ↔ 0 ≤ v ∧ v ≤ 255 := by
  simp [Instr.accepted]

/-- The operands `LIT` accepts (R63, R112). -/
theorem accepted_lit_iff (n : Int) : (Instr.lit n).accepted = true ↔ 0 ≤ n ∧ n ≤ 65535 := by
  simp [Instr.accepted]

/-- The operands `REP` accepts (R63, R116). -/
theorem accepted_rep_iff (n : Int) : (Instr.rep n).accepted = true ↔ 0 ≤ n ∧ n ≤ 287 := by
  simp [Instr.accepted]

/-! ## The size of a fixed-Huffman block -/

theorem fixedCodeRow_width_of_le {v : Nat} (h : v ≤ 143) : (fixedCodeRow v).width = 8 := by
  simp [fixedCodeRow, h]

/-- The widths in the table are 7, 8 and 9 (R110). -/
theorem fixedCodeRow_width_range (v : Nat) : 7 ≤ (fixedCodeRow v).width ∧ (fixedCodeRow v).width ≤ 9 := by
  unfold fixedCodeRow
  split_ifs <;> simp

/-- A block is the header and the pair of code words twice (R73). -/
theorem repeatBits_length (f : Bit) (l d : CodeWord) :
    (repeatBits f l d).length = 3 + 2 * (l.width + d.width) := by
  simp only [repeatBits, List.length_append, hdr_length, CodeWord.bits_length]
  omega

/-- The length value is at most 143, so its code word has 8 bits and the block has 33 to 37 bits: 5 bytes (R79, R116). -/
theorem output_rep_length (f : Bit) {n : Int} (h0 : 0 ≤ n) (h1 : n ≤ 287) :
    ((Instr.rep n).output f).length = 5 := by
  have hl : (fixedCodeRow (n / 2).toNat).width = 8 := fixedCodeRow_width_of_le (by omega)
  have hd := fixedCodeRow_width_range n.toNat
  rw [Instr.output, pack_length, repeatBits_length, hl]
  omega

/-- Settles O11: `WPTR` moves by the length of the output, which each command fixes. -/
theorem okCommandsAppendTheStatedSizes : Obligations.OkCommandsAppendTheStatedSizes := by
  intro i s t data h hr
  have hdid := exec_did i s t h
  rw [hdid.wptr_of_ok hr]
  cases i with
  | wbyte v => rfl
  | wbytes data => rfl
  | abf bits => rw [Instr.output, pack_length]
  | lit n => rw [Instr.output, literalBytes_length]
  | rep n =>
    obtain ⟨h0, h1⟩ := (accepted_rep_iff n).mp (hdid.accepted_of_ok rfl hr)
    rw [output_rep_length s.final h0 h1]
  | ocpl x0 x1 => rfl
  | snap => rfl
  | setfinal f => rfl
  | getstat => rfl

/-! ## Reading the buffer -/

/-- A sequence of reads answers nothing exactly when one of its addresses holds no value. -/
theorem Memory.readSeq_eq_none (m : Memory) (a n : Nat) :
    Memory.readSeq m a n = none ↔ ∃ i, i < n ∧ Memory.read m (a + i) = none := by
  induction n generalizing a with
  | zero => simp [Memory.readSeq]
  | succ n ih =>
    have hrest := ih (a + 1)
    simp only [Nat.add_assoc, Nat.add_comm 1] at hrest
    rw [Nat.exists_lt_succ_left, ← hrest, Nat.add_zero, Memory.readSeq]
    cases Memory.read m a with
    | none => simp
    | some b => cases Memory.readSeq m (a + 1) n <;> simp

/-- The read of all of `BUF` answers nothing exactly when an address below `WPTR` holds no value (R42). -/
theorem State.memRead_all_eq_none (s : State) :
    s.memRead 0 s.wptr = none ↔ ∃ a, a < s.wptr ∧ Memory.read s.mem a = none := by
  simp [State.memRead, Memory.readSeq_eq_none]

/-- `SNAP` stops exactly when its read of `BUF` answers nothing. -/
theorem exec_snap_eq_fault (s : State) : exec .snap s = .fault .unwrittenRead ↔ s.memRead 0 s.wptr = none := by
  simp only [exec, execSnap]
  cases s.memRead 0 s.wptr <;> simp

/-- `SNAP` goes on exactly when its read of `BUF` answers, and then answers what was read. -/
theorem exec_snap_eq_next (s t : State) :
    exec .snap s = .next t ↔ ∃ data, s.memRead 0 s.wptr = some data ∧ s.ok data = t := by
  simp only [exec, execSnap]
  cases s.memRead 0 s.wptr <;> simp

/-- Settles O12: `SNAP` stops where its read of `BUF` answers nothing, and under the invariant that read answers. -/
theorem snapStopsOnlyAtAnUnwrittenByte : Obligations.SnapStopsOnlyAtAnUnwrittenByte := by
  intro s
  refine ⟨(exec_snap_eq_fault s).trans s.memRead_all_eq_none, fun hs a ha hnone => ?_⟩
  have hread : s.memRead 0 s.wptr = none := s.memRead_all_eq_none.mpr ⟨a, ha, hnone⟩
  rw [hs.memRead_all] at hread
  cases hread

/-! ## Reading has no side effect -/

/-- With the scratch space empty, an answer changes nothing but the response. -/
theorem State.ok_with_resp {s : State} (hacc : s.acc = []) (hcnt : s.cnt = 0) (data : List Byte) :
    { s.ok data with resp := s.resp } = s := by
  cases s
  subst hacc hcnt
  rfl

/-- Settles O34: what `SNAP` and `GETSTAT` read is not the response, and the response is all that an answer changes. -/
theorem readsHaveNoSideEffect : Obligations.ReadsHaveNoSideEffect := by
  intro s t hacc hcnt
  constructor
  · intro h
    obtain ⟨data, hread, rfl⟩ := (exec_snap_eq_next s t).mp h
    exact ⟨State.ok_with_resp hacc hcnt data, (exec_snap_eq_next _ _).mpr ⟨data, hread, rfl⟩⟩
  · intro h
    cases h
    exact ⟨State.ok_with_resp hacc hcnt _, rfl⟩

/-! ## Capacity -/

/-- An append followed by an ok answer is what `Appended` says, register by register (R41). -/
theorem State.appended_append (s : State) (v : List Byte) : s.Appended ((s.append v).ok []) v where
  stored i b hb := by
    obtain ⟨hlt, rfl⟩ := List.getElem?_eq_some_iff.mp hb
    exact Memory.read_writeSeq_inside v s.mem s.wptr i hlt
  kept a ha := Memory.read_writeSeq_outside v s.mem s.wptr a ha
  wptr := rfl
  final := rfl
  err := rfl
  scratch := ⟨rfl, rfl⟩
  resp := rfl
  cap := rfl
  port := rfl

/-- Taking a fault is what `Faulted` says, register by register (R159). -/
theorem State.faulted_takeFault (s : State) (c : FaultCause) (value : Imm) :
    s.Faulted (s.takeFault c value) c.code value where
  unwritten := ⟨rfl, fun _ => rfl, rfl, ⟨rfl, rfl⟩, rfl, rfl⟩
  final := rfl
  err := rfl
  resp := rfl

/-- With room for its bytes an appending command appends them. -/
theorem State.appended_appendCommand {s : State} {v : List Byte} (hf : s.fits v.length = true) :
    s.Appended (s.appendCommand v) v := by
  rw [State.appendCommand, if_pos hf]
  exact s.appended_append v

/-- Without room for its bytes an appending command takes `Overflow` (R162). -/
theorem State.faulted_appendCommand {s : State} {v : List Byte} (hf : s.fits v.length = false) :
    s.Faulted (s.appendCommand v) 5#3 (BitVec.ofNat 32 v.length) := by
  rw [State.appendCommand, if_neg (by simp [hf])]
  exact s.faulted_takeFault .overflow _

/-- Outside the fault state and with an accepted operand, an appending command comes to append its output. -/
theorem exec_of_accepted {i : Instr} {s : State} (hv : s.err.valid = false) (hi : i.appends = true)
    (ha : i.accepted = true) : exec i s = .next (s.appendCommand (i.output s.final)) := by
  cases i with
  | wbyte v =>
    obtain ⟨h0, h1⟩ := (accepted_wbyte_iff v).mp ha
    have hr : ¬ (v < 0 ∨ v > Config.byteMax) := by simp only [Config.byteMax, Config.byteBits]; omega
    simp [exec, execWbyte, hv, hr, Instr.output]
  | wbytes data => simp [exec, execWbytes, hv, Instr.output]
  | abf bits => simp [exec, execAbf, hv, Instr.output]
  | lit n =>
    obtain ⟨h0, h1⟩ := (accepted_lit_iff n).mp ha
    have hr : ¬ (n < 0 ∨ n > Config.lenMax) := by simp only [Config.lenMax, Config.lenBits]; omega
    simp [exec, execLit, hv, hr, Instr.output]
  | rep n =>
    obtain ⟨h0, h1⟩ := (accepted_rep_iff n).mp ha
    have hd : fixedCode n = some (fixedCodeRow n.toNat) := (fixedCode_eq_some _ _).mpr ⟨h0, h1, rfl⟩
    have hl : fixedCode (n / 2) = some (fixedCodeRow (n / 2).toNat) :=
      (fixedCode_eq_some _ _).mpr ⟨by omega, by omega, rfl⟩
    simp [exec, execRep, hv, hl, hd, Instr.output]
  | ocpl x0 x1 => cases hi
  | snap => cases hi
  | setfinal f => cases hi
  | getstat => cases hi

/-- With a bounded `CAP` there is room exactly up to it (R41). -/
theorem State.fits_iff_of_cap {s : State} {c : Nat} (hc : s.cap = some c) (k : Nat) :
    s.fits k = true ↔ s.wptr + k ≤ c := by
  simp [State.fits_iff, hc]

/-- With `CAP` unbounded there is always room (R49). -/
theorem State.fits_of_unbounded {s : State} (hc : s.cap = none) (k : Nat) : s.fits k = true := by
  simp [State.fits_iff, hc]

/-- Settles O51: the command comes to append its output, and `CAP` says whether there is room for it. -/
theorem overflowExactlyBeyondCapacity : Obligations.OverflowExactlyBeyondCapacity := by
  constructor
  · intro i s c hv hi ha hc
    refine ⟨_, exec_of_accepted hv hi ha, ?_⟩
    have hroom := State.fits_iff_of_cap hc (i.output s.final).length
    split
    · next hlt => exact State.faulted_appendCommand (by rw [← Bool.not_eq_true, hroom]; omega)
    · next hle => exact State.appended_appendCommand (hroom.mpr (by omega))
  · intro i s hv hi ha hc
    exact ⟨_, exec_of_accepted hv hi ha, State.appended_appendCommand (State.fits_of_unbounded hc _)⟩

end Sys2Proof.Machine

/-! # Proofs of the statements of spec/30_encoding.md -/

namespace Sys2Proof

/-! ## The command word -/

/-- The opcode map finds an opcode by its number. -/
theorem opMap_find_code (o : Op) : opMap.find? (fun p => p.code == o.code) = some o := by
  cases o <;> rfl

/-- Different opcodes have different numbers (R62). -/
theorem Op.code_injective {o p : Op} (h : o.code = p.code) : o = p := by
  have hfind := opMap_find_code o
  rw [h, opMap_find_code p] at hfind
  exact (Option.some.inj hfind).symm

theorem Op.mem_opMap (o : Op) : o ∈ opMap := by
  cases o <;> decide

theorem Op.matchesWord_iff (o : Op) (w : CmdWord) :
    o.matchesWord w = true ↔ opField w = o.code ∧ immField w &&& o.zeroBits = 0#32 := by
  simp [Op.matchesWord]

/-- The legal reading of a word is the one opcode its two fields are spelled with. -/
theorem wordOp_eq_some_iff (w : CmdWord) (o : Op) :
    wordOp w = some o ↔ opField w = o.code ∧ immField w &&& o.zeroBits = 0#32 := by
  have hfound : ∀ p, wordOp w = some p → p.matchesWord w = true := fun p hp =>
    List.find?_some (p := (Op.matchesWord · w)) hp
  rw [← Op.matchesWord_iff]
  refine ⟨hfound o, fun h => ?_⟩
  obtain ⟨p, hp⟩ : ∃ p, wordOp w = some p :=
    Option.isSome_iff_exists.mp (List.find?_isSome.mpr ⟨o, o.mem_opMap, h⟩)
  obtain ⟨hop, -⟩ := (o.matchesWord_iff w).mp h
  obtain ⟨hpp, -⟩ := (p.matchesWord_iff w).mp (hfound p hp)
  rw [hp, Op.code_injective (hpp.symm.trans hop)]

/-- A command word is fixed by its two fields. -/
theorem cmdWord_inj (a b : Byte) (x y : Imm) : cmdWord a x = cmdWord b y ↔ a = b ∧ x = y := by
  refine ⟨fun h => ?_, fun ⟨ha, hx⟩ => by rw [ha, hx]⟩
  have hop := congrArg opField h
  have himm := congrArg immField h
  simp only [opField_cmdWord, immField_cmdWord] at hop himm
  exact ⟨hop, himm⟩

theorem cmdWord_and (a b : Byte) (x y : Imm) : cmdWord a x &&& cmdWord b y = cmdWord (a &&& b) (x &&& y) :=
  BitVec.and_append

/-- A row of the table: its match value is the opcode number alone, its mask all of `op` and the must-be-zero bits. -/
theorem Op.tableRow_eq (o : Op) : o.tableRow = (cmdWord o.code 0#32, cmdWord 0xFF#8 o.zeroBits) := by
  cases o <;> rfl

/-- A word matches a row exactly when the row's opcode is its legal reading: the row says of the two fields what R62 and
R63 say. -/
theorem Op.rowMatches_iff (o : Op) (w : CmdWord) : o.rowMatches w ↔ wordOp w = some o := by
  have hall : opField w &&& 0xFF#8 = opField w := BitVec.and_allOnes
  rw [wordOp_eq_some_iff, Op.rowMatches, Op.tableRow_eq, ← cmdWord_fields w, cmdWord_and, cmdWord_inj]
  simp only [opField_cmdWord, immField_cmdWord, hall]

/-- A word is illegal where it matches no row (R64). -/
theorem wordOp_eq_none_of_no_row {w : CmdWord} (h : ∀ o : Op, ¬ o.rowMatches w) : wordOp w = none :=
  Option.eq_none_iff_forall_ne_some.mpr fun o ho => h o ((o.rowMatches_iff w).mpr ho)

/-- Settles O15: to match a row is to have its opcode as legal reading, and a word has one legal reading. -/
theorem legalWordsAreTheTableRows : Obligations.LegalWordsAreTheTableRows := by
  refine ⟨fun w o => (o.rowMatches_iff w).symm, fun w o p ho hp => ?_⟩
  rw [Op.rowMatches_iff] at ho hp
  exact Option.some.inj (ho.symm.trans hp)

/-! ## Operands -/

theorem fitsSigned_iff (v : Int) : fitsSigned v = true ↔ -(2 ^ 31) ≤ v ∧ v < 2 ^ 31 := by
  simp [fitsSigned]

theorem fitsCount_iff (k : Nat) : fitsCount k = true ↔ k < 2 ^ 32 := by
  simp [fitsCount]

/-- An operand that fits is read back from its 32 bits (R63). -/
theorem toInt_ofInt_of_fitsSigned {v : Int} (h : fitsSigned v = true) : (BitVec.ofInt 32 v).toInt = v := by
  obtain ⟨hlo, hhi⟩ := (fitsSigned_iff v).mp h
  exact BitVec.toInt_ofInt_eq_self (by decide) hlo hhi

theorem fitsSigned_toInt (x : Imm) : fitsSigned x.toInt = true :=
  (fitsSigned_iff _).mpr ⟨x.le_toInt, x.toInt_lt⟩

/-- A count that fits is read back from its 32 bits (R61). -/
theorem toNat_ofNat_of_fitsCount {k : Nat} (h : fitsCount k = true) : (BitVec.ofNat 32 k).toNat = k :=
  Nat.mod_eq_of_lt ((fitsCount_iff k).mp h)

/-- An operand whose bits from `k` on must be zero, and are, is its low `k` bits. -/
theorem setWidth_setWidth_of_and_eq_zero {x : Imm} {k : Nat} (h : x &&& (BitVec.allOnes 32 <<< k) = 0#32) :
    (x.setWidth k).setWidth 32 = x := by
  apply BitVec.eq_of_getLsbD_eq
  intro i hi
  rw [BitVec.getLsbD_setWidth, BitVec.getLsbD_setWidth]
  by_cases hk : i < k
  · simp [hi, hk]
  · have hmask : (BitVec.allOnes 32 <<< k).getLsbD i = true := by
      rw [BitVec.getLsbD_shiftLeft, BitVec.getLsbD_allOnes]
      simp only [Bool.and_eq_true, decide_eq_true_eq, Bool.not_eq_true', decide_eq_false_iff_not]
      omega
    have hbit := congrArg (BitVec.getLsbD · i) h
    simp only [BitVec.getLsbD_and, hmask, Bool.and_true, BitVec.getLsbD_zero] at hbit
    simp [hk, hbit]

/-! ## The decoder -/

theorem decodeWord_of_wordOp {w : CmdWord} {o : Op} (h : wordOp w = some o) (ps : List PortItem) :
    decodeWord w ps = decodeOperand o (immField w) ps := by
  simp only [decodeWord, h]

theorem decodeWord_of_illegal {w : CmdWord} (h : wordOp w = none) (ps : List PortItem) :
    decodeWord w ps = .illegal w ps := by
  simp only [decodeWord, h]

/-- The word of every well-formed command has the shape R60 to R65 give it. -/
theorem encodeShape (i : Instr) : Laws.EncodeShape.Statement i :=
  match i with
  | .wbyte v => Laws.EncodeShape.wbyte v
  | .wbytes data => Laws.EncodeShape.wbytes data
  | .abf bits => Laws.EncodeShape.abf bits
  | .ocpl x0 x1 => Laws.EncodeShape.ocpl x0 x1
  | .snap => Laws.EncodeShape.snap
  | .lit n => Laws.EncodeShape.lit n
  | .rep n => Laws.EncodeShape.rep n
  | .setfinal f => Laws.EncodeShape.setfinal f
  | .getstat => Laws.EncodeShape.getstat

/-- The word of a well-formed command is read as its opcode. -/
theorem wordOp_word {i : Instr} (h : i.wellFormed = true) : wordOp i.word = some i.op := by
  obtain ⟨hop, himm, hzero, -⟩ := encodeShape i h
  rw [wordOp_eq_some_iff, himm]
  exact ⟨hop, hzero⟩

/-- The operand of a well-formed command is read back from its field and its beats. -/
theorem decodeOperand_imm {i : Instr} (h : i.wellFormed = true) (rest : List PortItem) :
    decodeOperand i.op i.imm (i.beats ++ rest) = .command i rest := by
  cases i with
  | wbyte v => simp [Instr.op, Instr.imm, Instr.beats, decodeOperand, toInt_ofInt_of_fitsSigned h]
  | lit n => simp [Instr.op, Instr.imm, Instr.beats, decodeOperand, toInt_ofInt_of_fitsSigned h]
  | rep n => simp [Instr.op, Instr.imm, Instr.beats, decodeOperand, toInt_ofInt_of_fitsSigned h]
  | wbytes data =>
    simp only [Instr.op, Instr.imm, Instr.beats, decodeOperand, toNat_ofNat_of_fitsCount h, takeBytes_map]
  | abf bits =>
    simp only [Instr.op, Instr.imm, Instr.beats, decodeOperand, toNat_ofNat_of_fitsCount h, takeBits_map]
  | ocpl x0 x1 =>
    have h0 : ((x0 ++ x1).setWidth 32).extractLsb' 8 8 = x0 := by
      rw [BitVec.extractLsb'_setWidth_of_le (by decide), BitVec.extractLsb'_append_eq_left]
    have h1 : ((x0 ++ x1).setWidth 32).extractLsb' 0 8 = x1 := by
      rw [BitVec.extractLsb'_setWidth_of_le (by decide), BitVec.extractLsb'_append_eq_right]
    simp [Instr.op, Instr.imm, Instr.beats, decodeOperand, h0, h1]
  | snap => rfl
  | setfinal f => cases f <;> rfl
  | getstat => rfl

/-- Settles O13: the word is read as the command's opcode, and the operand is read back from the field and the beats. -/
theorem decodeInvertsEncode : Obligations.DecodeInvertsEncode := by
  intro i rest h
  obtain ⟨-, himm, -, -⟩ := encodeShape i h
  calc decode (encode i ++ rest) = decodeWord i.word (i.beats ++ rest) := rfl
    _ = decodeOperand i.op i.imm (i.beats ++ rest) := by rw [decodeWord_of_wordOp (wordOp_word h), himm]
    _ = .command i rest := decodeOperand_imm h rest

/-- What a legal word's operand decodes to is a well-formed command of that opcode, with that field and the beats that
stood on the port. -/
theorem decodeOperand_eq_command {o : Op} {x : Imm} {ps rest : List PortItem} {i : Instr}
    (hz : x &&& o.zeroBits = 0#32) (h : decodeOperand o x ps = .command i rest) :
    i.wellFormed = true ∧ i.op = o ∧ i.imm = x ∧ ps = i.beats ++ rest := by
  cases o with
  | wbyte => cases h; exact ⟨fitsSigned_toInt x, rfl, BitVec.ofInt_toInt, rfl⟩
  | lit => cases h; exact ⟨fitsSigned_toInt x, rfl, BitVec.ofInt_toInt, rfl⟩
  | rep => cases h; exact ⟨fitsSigned_toInt x, rfl, BitVec.ofInt_toInt, rfl⟩
  | wbytes =>
    rw [decodeOperand] at h
    split at h
    · next bs ps' hok =>
      cases h
      obtain ⟨hlen, hps⟩ := takeBytes_ok hok
      exact ⟨(fitsCount_iff _).mpr (hlen ▸ x.isLt), rfl, by simp [Instr.imm, hlen], hps⟩
    · cases h
  | abf =>
    rw [decodeOperand] at h
    split at h
    · next bs ps' hok =>
      cases h
      obtain ⟨hlen, hps⟩ := takeBits_ok hok
      exact ⟨(fitsCount_iff _).mpr (hlen ▸ x.isLt), rfl, by simp [Instr.imm, hlen], hps⟩
    · cases h
  | ocpl =>
    cases h
    refine ⟨rfl, rfl, ?_, rfl⟩
    rw [Instr.imm, BitVec.extractLsb'_append_extractLsb'_eq_extractLsb' (start₁ := 0) (len₁ := 8) rfl,
      ← BitVec.setWidth_eq_extractLsb' (by decide)]
    exact setWidth_setWidth_of_and_eq_zero (k := 16) hz
  | snap => cases h; exact ⟨rfl, rfl, hz.symm.trans BitVec.and_allOnes, rfl⟩
  | setfinal =>
    cases h
    refine ⟨rfl, rfl, ?_, rfl⟩
    rw [← setWidth_setWidth_of_and_eq_zero (k := 1) hz, BitVec.setWidth_one, Instr.imm]
    cases x.getLsbD 0 <;> rfl
  | getstat => cases h; exact ⟨rfl, rfl, hz.symm.trans BitVec.and_allOnes, rfl⟩

/-- Settles O14: the word is its two fields, of which one is the opcode's number and the other the command's operand. -/
theorem decodedCommandStoodEncoded : Obligations.DecodedCommandStoodEncoded := by
  intro ps i rest h
  match ps with
  | [] => cases h
  | .reset :: _ => cases h
  | .p8 _ :: _ => cases h
  | .p1 _ :: _ => cases h
  | .word w :: ps =>
    rw [decode] at h
    cases hw : wordOp w with
    | none => simp [decodeWord_of_illegal hw] at h
    | some o =>
      rw [decodeWord_of_wordOp hw] at h
      obtain ⟨hop, hzero⟩ := (wordOp_eq_some_iff w o).mp hw
      obtain ⟨hwf, rfl, himm, rfl⟩ := decodeOperand_eq_command hzero h
      have hword : i.word = w := by rw [Instr.word, ← hop, himm, cmdWord_fields]
      exact ⟨hwf, by rw [encode, hword]; rfl⟩

/-- Settles O16, by running the decoder on each word. -/
theorem wordsOfTheTestVectorsDecode : Obligations.WordsOfTheTestVectorsDecode := by
  unfold Obligations.WordsOfTheTestVectorsDecode
  decide

/-! ## The placed instruction -/

/-- The beats placed behind a word are no more than it announces. -/
theorem tableItems_eq (nbits w : Nat) :
    ∃ beats, tableItems nbits w = .word (BitVec.ofNat 40 (w % 2 ^ nbits)) :: beats ∧
      beats.length ≤ announcedBeats (BitVec.ofNat 40 (w % 2 ^ nbits)) := by
  refine ⟨_, rfl, ?_⟩
  generalize (BitVec.ofNat 40 (w % 2 ^ nbits)) = word
  have hop : ∀ o, wordOp word = some o → opField word = o.code := fun o ho =>
    ((wordOp_eq_some_iff word o).mp ho).1
  split
  · next ho => simp [announcedBeats, hop _ ho]
  · next ho => simp [announcedBeats, hop _ ho]
  · exact Nat.zero_le _

/-- Where the placed bits decode to a command, they are that command's encoding and nothing more. -/
theorem tableItems_eq_encode {nbits w : Nat} {i : Instr} (h : decodeTableWord nbits w = some i) :
    i.wellFormed = true ∧ tableItems nbits w = encode i := by
  unfold decodeTableWord at h
  split at h
  · next j rest hd =>
    obtain rfl : j = i := Option.some.inj h
    obtain ⟨hwf, henc⟩ := decodedCommandStoodEncoded _ _ _ hd
    obtain ⟨beats, hitems, hlen⟩ := tableItems_eq nbits w
    obtain ⟨-, -, -, hbeats⟩ := encodeShape j hwf
    rw [hitems, encode, List.cons_append] at henc
    obtain ⟨hword, rfl⟩ := List.cons.inj henc
    have hrest : rest = [] := by
      rw [PortItem.word.inj hword, List.length_append, hbeats] at hlen
      exact List.length_eq_zero_iff.mp (by omega)
    exact ⟨hwf, by rw [hitems, hrest, List.append_nil, hword, encode]⟩
  · cases h

end Sys2Proof

namespace Sys2Proof.Machine

/-! ## What the step consumes -/

/-- Settles O18: the encoding decodes to the command (`decodeInvertsEncode`), and no command takes items of its own. -/
theorem commandIsConsumedWithItsBeats : Obligations.CommandIsConsumedWithItsBeats := by
  intro s t i rest hwf hport
  have hstep : step s = exec i { s with port := rest } :=
    step_of_decode_command (hport ▸ decodeInvertsEncode i rest hwf)
  exact ⟨hstep, fun h => (exec_did _ _ _ (hstep ▸ h)).cap_port.2⟩

/-- Settles O19: the placed bits are the encoding of the command and nothing more (`tableItems_eq_encode`), so the step
leaves the port as it stood behind them. -/
theorem placedInstructionIsTheNextStep : Obligations.PlacedInstructionIsTheNextStep := by
  intro s nbits w i h
  obtain ⟨hwf, hitems⟩ := tableItems_eq_encode h
  have hport : (s.withFetchWord nbits w).port = encode i ++ s.port := by rw [← hitems]; rfl
  exact step_of_decode_command (hport ▸ decodeInvertsEncode i s.port hwf)

/-! ## Illegal words and wrong framing -/

theorem step_of_illegal {s : State} {w : CmdWord} {rest : List PortItem} (hp : s.port = .word w :: rest)
    (hw : wordOp w = none) : step s = .next ({ s with port := rest }.takeIllegal w) := by
  simp only [step, hp, decode, decodeWord_of_illegal hw]

/-- Outside the fault state an illegal word takes `IllegalCommand` with its operand field (R161). -/
theorem State.takeIllegal_of_clear {s : State} (hv : s.err.valid = false) (w : CmdWord) :
    s.takeIllegal w = s.takeFault .illegalCommand (w.setWidth 32) := by
  rw [State.takeIllegal, State.prologue_of_clear _ _ hv, immField, BitVec.setWidth_eq_extractLsb' (by decide)]

/-- Settles O20: a word without a row is illegal, and outside the fault state the prologue lets it take its fault. -/
theorem illegalWordRaisesIllegalCommand : Obligations.IllegalWordRaisesIllegalCommand := by
  intro s w rest hp hrow hv
  refine ⟨_, step_of_illegal hp (wordOp_eq_none_of_no_row hrow), ?_⟩
  rw [State.takeIllegal_of_clear (s := { s with port := rest }) hv]
  exact State.faulted_takeFault _ .illegalCommand _

theorem step_of_malformed {s : State} {e : FramingError} (h : decode s.port = .malformed e) :
    step s = .refused (.framing e) := by
  simp only [step, h]

/-- With fewer than the announced beats read, whatever stands in the way of one more ends the reading (U10). -/
theorem takeBytes_of_short {data : List Byte} {tail : List PortItem} {k : Nat} {e : FramingError}
    (hlt : data.length < k) (htail : ∀ j, takeBytes (j + 1) tail = .error e) :
    takeBytes k (data.map .p8 ++ tail) = .error e := by
  induction data generalizing k with
  | nil =>
    obtain ⟨j, rfl⟩ := Nat.exists_eq_add_of_lt hlt
    exact htail _
  | cons b bs ih =>
    cases k with
    | zero => exact absurd hlt (Nat.not_lt_zero _)
    | succ k => simp [takeBytes, ih (Nat.lt_of_succ_lt_succ hlt)]

theorem takeBits_of_short {bits : List Bit} {tail : List PortItem} {k : Nat} {e : FramingError}
    (hlt : bits.length < k) (htail : ∀ j, takeBits (j + 1) tail = .error e) :
    takeBits k (bits.map .p1 ++ tail) = .error e := by
  induction bits generalizing k with
  | nil =>
    obtain ⟨j, rfl⟩ := Nat.exists_eq_add_of_lt hlt
    exact htail _
  | cons b bs ih =>
    cases k with
    | zero => exact absurd hlt (Nat.not_lt_zero _)
    | succ k => simp [takeBits, ih (Nat.lt_of_succ_lt_succ hlt)]

/-- A `WBYTES` that has had too few beats is refused for what stands after them. -/
theorem step_of_short_wbytes {s : State} {w : CmdWord} {data : List Byte} {tail : List PortItem} {e : FramingError}
    (hp : s.port = .word w :: (data.map .p8 ++ tail)) (hw : Op.rowMatches .wbytes w)
    (hlt : data.length < (immField w).toNat) (htail : ∀ j, takeBytes (j + 1) tail = .error e) :
    step s = .refused (.framing e) := by
  refine step_of_malformed ?_
  rw [hp, decode, decodeWord_of_wordOp ((Op.rowMatches_iff _ w).mp hw), decodeOperand, takeBytes_of_short hlt htail]

/-- An `ABF` that has had too few beats is refused for what stands after them. -/
theorem step_of_short_abf {s : State} {w : CmdWord} {bits : List Bit} {tail : List PortItem} {e : FramingError}
    (hp : s.port = .word w :: (bits.map .p1 ++ tail)) (hw : Op.rowMatches .abf w)
    (hlt : bits.length < (immField w).toNat) (htail : ∀ j, takeBits (j + 1) tail = .error e) :
    step s = .refused (.framing e) := by
  refine step_of_malformed ?_
  rw [hp, decode, decodeWord_of_wordOp ((Op.rowMatches_iff _ w).mp hw), decodeOperand, takeBits_of_short hlt htail]

/-- Settles O21: the beats that did come are read, and the first item that is no further beat names the error. -/
theorem wrongFramingIsRefused : Obligations.WrongFramingIsRefused := by
  refine ⟨fun s b rest hp => ?_, fun s b rest hp => ?_, fun s w data hp hw hlt => ?_,
    fun s w data rest hp hw hlt => ?_, fun s w w' data rest hp hw hlt => ?_, fun s w data b rest hp hw hlt => ?_,
    fun s w bits hp hw hlt => ?_, fun s w bits rest hp hw hlt => ?_, fun s w w' bits rest hp hw hlt => ?_,
    fun s w bits b rest hp hw hlt => ?_⟩
  · exact step_of_malformed (by rw [hp]; rfl)
  · exact step_of_malformed (by rw [hp]; rfl)
  · exact step_of_short_wbytes (tail := []) (by rw [hp, List.append_nil]) hw hlt fun _ => rfl
  · exact step_of_short_wbytes hp hw hlt fun _ => rfl
  · exact step_of_short_wbytes hp hw hlt fun _ => rfl
  · exact step_of_short_wbytes hp hw hlt fun _ => rfl
  · exact step_of_short_abf (tail := []) (by rw [hp, List.append_nil]) hw hlt fun _ => rfl
  · exact step_of_short_abf hp hw hlt fun _ => rfl
  · exact step_of_short_abf hp hw hlt fun _ => rfl
  · exact step_of_short_abf hp hw hlt fun _ => rfl

/-! ## Packing -/

/-- Zeros after a sequence read as no element does. -/
theorem getD_append_replicate_false (bs : List Bit) (n i : Nat) :
    ((bs ++ List.replicate n false)[i]?).getD false = (bs[i]?).getD false := by
  rw [List.getElem?_append]
  split
  · rfl
  · next h =>
    rw [List.getElem?_eq_none (Nat.not_lt.mp h), List.getElem?_replicate]
    split <;> rfl

/-- Bit `i` of byte `j` of a packed sequence is element `8j + i`, zero beyond the end (R76). -/
theorem getLsbD_of_getElem?_pack {bs : List Bit} {j i : Nat} {b : Byte} (h : (pack bs)[j]? = some b) (hi : i < 8) :
    b.getLsbD i = (bs[8 * j + i]?).getD false := by
  obtain ⟨hj, rfl⟩ := List.getElem?_eq_some_iff.mp h
  simp only [pack, List.getElem_map, List.getElem_range]
  rw [getLsbD_byteOfBits _ _ hi, List.getElem?_take_of_lt hi, List.getElem?_drop, getD_append_replicate_false]

/-- The packed bytes hold the bits and the padding, and nothing else (R75). -/
theorem eight_mul_pack_length (bs : List Bit) : 8 * (pack bs).length = bs.length + padLength bs.length := by
  rw [pack_length, padLength]
  omega

/-- Settles O22: the length of the padding is arithmetic, and its bits are the elements beyond the end. -/
theorem paddingIsMinimal : Obligations.PaddingIsMinimal := by
  intro bs
  have hlen := eight_mul_pack_length bs
  refine ⟨hlen, rfl, ?_, ?_, fun b k hlast hk => ?_⟩
  · rw [padLength]; omega
  · rw [padLength]; omega
  · rcases Nat.lt_or_ge k 8 with hk8 | hk8
    · rw [List.getLast?_eq_getElem?] at hlast
      rw [getLsbD_of_getElem?_pack hlast hk8, List.getElem?_eq_none (by omega)]
      rfl
    · exact BitVec.getLsbD_of_ge b k hk8

/-- A sequence of one to eight bits packs into one byte. -/
theorem pack_of_length_le_eight {bs : List Bit} (h0 : bs ≠ []) (h8 : bs.length ≤ 8) :
    pack bs = [byteOfBits (bs ++ List.replicate (8 - bs.length) false)] := by
  have hpos : 0 < bs.length := List.length_pos_iff.mpr h0
  have hcount : (bs.length + 7) / 8 = 1 := by omega
  have hpad : padLength bs.length = 8 - bs.length := by rw [padLength]; omega
  have htake : (bs ++ List.replicate (8 - bs.length) false).take 8 = bs ++ List.replicate (8 - bs.length) false :=
    List.take_of_length_le (by simp; omega)
  simp [pack, hcount, hpad, htake]

/-- Eight bits in front of a sequence are one byte in front of its packed bytes. -/
theorem pack_append_of_length_eight {v : List Bit} (h : v.length = 8) (bs : List Bit) :
    pack (v ++ bs) = byteOfBits v :: pack bs := by
  have hcount : ((v ++ bs).length + 7) / 8 = (bs.length + 7) / 8 + 1 := by rw [List.length_append, h]; omega
  have hpad : padLength (v ++ bs).length = padLength bs.length := by
    rw [List.length_append, h, padLength, padLength]
    omega
  have hdrop (j : Nat) (w : List Bit) : (v ++ w).drop (8 * (j + 1)) = w.drop (8 * j) := by
    rw [Nat.mul_succ, Nat.add_comm, ← List.drop_drop, List.drop_left' h]
  simp only [pack, hcount, hpad, List.append_assoc, List.range_succ_eq_map, List.map_cons, List.map_map]
  rw [Nat.mul_zero, List.drop_zero, List.take_left' h]
  simp only [Function.comp_def, Nat.succ_eq_add_one, hdrop]

/-- Flushing a part-filled scratch space gives the bytes of the bits in it (R93). -/
theorem State.flushScratch_eq {s : State} (hlen : s.acc.length = s.cnt) (hle : s.cnt ≤ 7) :
    s.flushScratch = (s.clearScratch, pack s.acc) := by
  by_cases h : s.cnt = 0
  · have hacc : s.acc = [] := List.length_eq_zero_iff.mp (hlen.trans h)
    rw [State.flushScratch, if_pos h, hacc, pack_nil, State.clearScratch, ← hacc, ← h]
  · have hacc : s.acc ≠ [] := fun hnil => h (by rw [← hlen, hnil]; rfl)
    rw [State.flushScratch, if_neg h, pack_of_length_le_eight hacc (by omega), hlen]

/-- From a scratch space with up to seven bits in it, the operational account gives the bytes of those bits and the new
ones, and ends with the scratch space empty. -/
theorem State.assemble_eq (bs : List Bit) {s : State} (hlen : s.acc.length = s.cnt) (hle : s.cnt ≤ 7) :
    State.assemble bs s = (s.clearScratch, pack (s.acc ++ bs)) := by
  induction bs generalizing s with
  | nil => rw [State.assemble, State.flushScratch_eq hlen hle, List.append_nil]
  | cons b bs ih =>
    rw [List.append_cons]
    by_cases h : s.cnt = 7
    · have hbyte : (s.acc ++ [b]).length = 8 := by simp [hlen, h]
      simp only [State.assemble, State.pushBit_of_seven b h, pack_append_of_length_eight hbyte]
      rw [ih (s := s.clearScratch) rfl (Nat.zero_le _)]
      rfl
    · simp only [State.assemble, State.pushBit_of_ne_seven b h]
      rw [ih (s := { s with acc := s.acc ++ [b], cnt := s.cnt + 1 }) (by simp [hlen]) (Nat.lt_of_le_of_ne hle h)]
      rfl

/-- Settles O23: the placement is `getLsbD_of_getElem?_pack`, and the scratch account is `State.assemble_eq` started
empty. -/
theorem packPlacesEachBitAsTheScratchDoes : Obligations.PackPlacesEachBitAsTheScratchDoes := by
  refine ⟨pack_nil, fun bs => ⟨pack_length bs, fun j i b => getLsbD_of_getElem?_pack, fun s hacc hcnt => ?_⟩⟩
  have hclear : s.clearScratch = s := by rw [State.clearScratch, ← hacc, ← hcnt]
  rw [State.assemble_eq bs (by rw [hacc, hcnt]; rfl) (by omega), hclear, hacc, List.nil_append]

/-! ## The literal header -/

/-- The ones' complement of a two-byte number is its distance from 65535 (R72, R94). -/
theorem onesComplement_be_two {n : Nat} (h : n ≤ 65535) : onesComplement (be 2 n) = be 2 (65535 - n) := by
  have hn : n < 2 ^ 16 := by omega
  have hval : fromBe (be 2 n) = n := by rw [fromBe_be, Nat.mod_eq_of_lt (by omega)]
  have hxor : n ^^^ 65535 = 65535 - n := by
    have hnot := congrArg BitVec.toNat (BitVec.xor_allOnes (x := BitVec.ofNat 16 n))
    rwa [BitVec.toNat_xor, BitVec.toNat_allOnes, BitVec.toNat_not, BitVec.toNat_ofNat, Nat.mod_eq_of_lt hn] at hnot
  rw [onesComplement, be_length, hval]
  exact congrArg (be 2) hxor

/-- The five bytes of format LITHDR (R72). -/
theorem literalBytes_eq (f : Bit) {n : Nat} (h : n ≤ 65535) :
    literalBytes f n = [BitVec.ofNat 8 f.toNat, BitVec.ofNat 8 (n / 256), BitVec.ofNat 8 (n % 256),
      BitVec.ofNat 8 (255 - n / 256), BitVec.ofNat 8 (255 - n % 256)] := by
  have hhigh : (65535 - n) / 256 = 255 - n / 256 := by omega
  have hlow : (65535 - n) % 256 = 255 - n % 256 := by omega
  rw [literalBytes, pack_hdr_stored, onesComplement_be_two h, be_two, be_two, hhigh, hlow]
  rfl

/-- Any part of what was appended is read back from where it was put (R41, R42). -/
theorem State.Appended.memRead {s t : State} {u v w : List Byte} (h : s.Appended t (u ++ v ++ w)) :
    t.memRead (s.wptr + u.length) v.length = some v := by
  refine (t.memRead_eq_some _ _ _).mpr ⟨?_, rfl, fun i hi => ?_⟩
  · rw [h.wptr, List.length_append, List.length_append]
    omega
  · rw [Nat.add_assoc]
    exact h.stored _ _ (by simp [List.getElem?_append, hi])

/-- Settles O56: `LIT` appends the five bytes of `literalBytes_eq`, and each field is read back from its place. -/
theorem lithdrHasTheStatedFields : Obligations.LithdrHasTheStatedFields := by
  intro n s hn hv hf
  have hexec : exec (.lit n) s = .next ((s.append (literalBytes s.final n)).ok []) :=
    exec_lit_of_fits (by omega) (by omega) hv (unit_eq_five ▸ hf)
  have happ := s.appended_append (literalBytes s.final n)
  generalize (s.append (literalBytes s.final n)).ok [] = t at hexec happ
  rw [literalBytes_eq s.final hn] at happ
  refine ⟨t, BitVec.ofNat 8 s.final.toNat, hexec, happ.wptr, happ.stored 0 _ rfl, ?_, ?_, ?_,
    happ.memRead (u := [_]) (v := [_, _]) (w := [_, _]), happ.memRead (u := [_, _, _]) (v := [_, _]) (w := [])⟩
  · cases s.final <;> rfl
  · cases s.final <;> rfl
  · cases s.final <;> rfl

end Sys2Proof.Machine

/-! # Proofs of the statements of spec/40_writer.md -/

namespace Sys2Proof.Machine

/-! ## The ones' complement -/

/-- The integer of the complemented bytes is what is missing to all ones. -/
theorem fromBe_add_fromBe_map_complement (v : List Byte) :
    fromBe v + fromBe (v.map (255#8 - ·)) + 1 = 256 ^ v.length := by
  induction v with
  | nil => rfl
  | cons b v ih =>
    have hb : (255#8 - b).toNat = 255 - b.toNat := BitVec.toNat_sub_of_le (BitVec.le_def.mpr (by simp; omega))
    have hsplit : b.toNat * 256 ^ v.length + (255 - b.toNat) * 256 ^ v.length = 255 * 256 ^ v.length := by
      rw [← Nat.add_mul]
      congr 1
      omega
    rw [List.map_cons, fromBe_cons, fromBe_cons, hb, List.length_map, List.length_cons, Nat.pow_succ]
    omega

/-- Xor with all ones takes a number that fits to its distance from all ones. -/
theorem xor_two_pow_sub_one {k x : Nat} (h : x < 2 ^ k) : x ^^^ (2 ^ k - 1) = 2 ^ k - 1 - x := by
  have hnot := congrArg BitVec.toNat (BitVec.xor_allOnes (x := BitVec.ofNat k x))
  rwa [BitVec.toNat_xor, BitVec.toNat_allOnes, BitVec.toNat_not, BitVec.toNat_ofNat, Nat.mod_eq_of_lt h] at hnot

/-- The integer of the complemented bytes is the integer definition of R94. -/
theorem fromBe_map_complement (v : List Byte) :
    fromBe (v.map (255#8 - ·)) = fromBe v ^^^ (2 ^ (8 * v.length) - 1) := by
  have hsum := fromBe_add_fromBe_map_complement v
  have hpow : 2 ^ (8 * v.length) = 256 ^ v.length := Nat.pow_mul 2 8 v.length
  rw [xor_two_pow_sub_one (hpow ▸ fromBe_lt v), hpow]
  omega

/-- The ones' complement of a sequence is the complement of each byte (R94). -/
theorem onesComplement_eq_map (v : List Byte) : onesComplement v = v.map (255#8 - ·) := by
  rw [onesComplement, ← fromBe_map_complement]
  simpa using be_fromBe (v.map (255#8 - ·))

theorem fromBe_onesComplement (v : List Byte) :
    fromBe (onesComplement v) = fromBe v ^^^ (2 ^ (8 * v.length) - 1) := by
  rw [onesComplement_eq_map, fromBe_map_complement]

theorem onesComplement_onesComplement (v : List Byte) : onesComplement (onesComplement v) = v := by
  simp [onesComplement_eq_map]

/-- Settles O27: the consequences (a) to (e) follow from `onesComplement_eq_map` and its integer form. -/
theorem onesComplementIsBytewiseAndInvolutive : Obligations.OnesComplementIsBytewiseAndInvolutive := by
  refine ⟨rfl, fun v => ⟨fromBe_onesComplement v, onesComplement_length v, onesComplement_onesComplement v,
    fun k b hb => ?_⟩, fun v hl => ⟨?_, ?_⟩⟩
  · rw [onesComplement_eq_map, List.getElem?_map, hb]
    rfl
  · rw [fromBe_onesComplement, hl, Nat.xor_xor_cancel_left]
    rfl
  · have hsum := fromBe_add_fromBe_map_complement v
    rw [← onesComplement_eq_map, hl] at hsum
    omega

/-! ## Commands that answer -/

/-- An answer is what `Answered` says, register by register. -/
theorem State.answered_ok (s : State) (data : List Byte) : s.Answered (s.ok data) data where
  unwritten := ⟨rfl, fun _ => rfl, rfl, ⟨rfl, rfl⟩, rfl, rfl⟩
  final := rfl
  err := rfl
  resp := rfl

/-- Settles O33: under the invariant the read of `BUF` answers its content, and that is the answer of `SNAP`. -/
theorem snapAnswersTheBuffer : Obligations.SnapAnswersTheBuffer := by
  intro s hs
  have hread := hs.memRead_all
  obtain ⟨-, hlen, hbytes⟩ := (s.memRead_eq_some _ _ _).mp hread
  refine ⟨s.ok s.contents, s.contents, (exec_snap_eq_next _ _).mpr ⟨_, hread, rfl⟩, s.answered_ok _, rfl, hlen,
    fun a ha => ?_⟩
  have hbyte := hbytes a (hlen ▸ ha)
  rw [Nat.zero_add] at hbyte
  rw [hbyte, List.getElem?_eq_getElem]

/-- Settles O32: the two answered bytes are the ones' complement of the operand, byte by byte. -/
theorem ocplAnswersTheComplement : Obligations.OcplAnswersTheComplement := by
  intro x0 x1 s hv
  refine ⟨s.ok [255#8 - x0, 255#8 - x1], ?_, s.answered_ok _⟩
  simp [exec, execOcpl, hv, onesComplement_eq_map]

/-! ## Commands that append -/

/-- Outside the fault state, `WBYTE` of a number that is no byte takes `BYTE_RANGE` (R91). -/
theorem exec_wbyte_of_out_of_range {v : Int} {s : State} (hv : s.err.valid = false) (h : v < 0 ∨ 255 < v) :
    exec (.wbyte v) s = .next (s.takeFault .byteRange (low32 v)) := by
  have hr : v < 0 ∨ v > Config.byteMax := h
  simp [exec, execWbyte, hv, hr]

/-- Outside the fault state, an appending command with an accepted operand appends its output where there is room for
it, and else takes `Overflow`. -/
theorem exec_appends_or_overflows {i : Instr} {s : State} (hv : s.err.valid = false) (hi : i.appends = true)
    (ha : i.accepted = true) :
    (s.fits (i.output s.final).length = true → ∃ t, exec i s = .next t ∧ s.Appended t (i.output s.final)) ∧
    (s.fits (i.output s.final).length = false →
      ∃ t, exec i s = .next t ∧ s.Faulted t 5#3 (BitVec.ofNat 32 (i.output s.final).length)) :=
  ⟨fun hf => ⟨_, exec_of_accepted hv hi ha, State.appended_appendCommand hf⟩,
    fun hf => ⟨_, exec_of_accepted hv hi ha, State.faulted_appendCommand hf⟩⟩

theorem toNat_ofInt_of_byte_range {v : Int} (h0 : 0 ≤ v) (h1 : v ≤ 255) : ((BitVec.ofInt 8 v).toNat : Int) = v := by
  rw [BitVec.toNat_ofInt]
  omega

/-- Settles O29: the range check first, then the append and its capacity check. -/
theorem wbyteAppendsAByteOrFaults : Obligations.WbyteAppendsAByteOrFaults := by
  intro v s hv
  refine ⟨fun h0 h1 hf => ?_, fun h => ?_, fun h0 h1 hf => ?_⟩
  · obtain ⟨t, ht, happ⟩ := (exec_appends_or_overflows hv rfl ((accepted_wbyte_iff v).mpr ⟨h0, h1⟩)).1 hf
    exact ⟨t, _, ht, toNat_ofInt_of_byte_range h0 h1, happ⟩
  · exact ⟨_, exec_wbyte_of_out_of_range hv h, s.faulted_takeFault .byteRange _⟩
  · exact (exec_appends_or_overflows hv rfl ((accepted_wbyte_iff v).mpr ⟨h0, h1⟩)).2 hf

/-- One byte is the same command in both spellings, in the fault state too (R92). -/
theorem exec_wbytes_singleton (b : Byte) (s : State) : exec (.wbytes [b]) s = exec (.wbyte b.toNat) s := by
  have hb := b.isLt
  have hr : ¬ ((b.toNat : Int) < 0 ∨ (b.toNat : Int) > Config.byteMax) := by
    simp only [Config.byteMax, Config.byteBits]
    omega
  simp only [exec, execWbytes, execWbyte, hr, if_false, BitVec.ofInt_natCast, BitVec.ofNat_toNat, BitVec.setWidth_eq]

/-- Settles O30: the output of `WBYTES` is its payload. -/
theorem wbytesAppendsVerbatim : Obligations.WbytesAppendsVerbatim :=
  ⟨fun data _ hv => exec_appends_or_overflows (i := .wbytes data) hv rfl rfl, exec_wbytes_singleton⟩

/-! ## Unpacking -/

theorem unpack_cons (b : Byte) (s : List Byte) : unpack (b :: s) = unpack [b] ++ unpack s := by
  simp [unpack]

/-- The bits of a byte are the eight bits it was assembled from (R44). -/
theorem unpack_byteOfBits {v : List Bit} (h : v.length = 8) : unpack [byteOfBits v] = v := by
  refine List.ext_getElem (by simp [h]) fun i h8 hi => ?_
  have hbit := getLsbD_byteOfBits v i (h ▸ hi)
  rw [List.getElem?_eq_getElem hi] at hbit
  simpa [unpack] using hbit

/-- Unpacking the packed bytes gives the bits and the padding, eight at a time (R44, R75). -/
theorem unpack_pack (bs : List Bit) : unpack (pack bs) = bs ++ List.replicate (padLength bs.length) false := by
  by_cases h0 : bs = []
  · subst h0
    rfl
  by_cases h8 : bs.length ≤ 8
  · have hpos : 0 < bs.length := List.length_pos_iff.mpr h0
    have hpad : padLength bs.length = 8 - bs.length := by rw [padLength]; omega
    rw [pack_of_length_le_eight h0 h8, unpack_byteOfBits (by simp; omega), hpad]
  · have hfirst : (bs.take 8).length = 8 := by simp; omega
    have hpad : padLength (bs.drop 8).length = padLength bs.length := by
      rw [List.length_drop, padLength, padLength]
      omega
    calc unpack (pack bs)
      _ = unpack (pack (bs.take 8 ++ bs.drop 8)) := by rw [List.take_append_drop]
      _ = bs.take 8 ++ unpack (pack (bs.drop 8)) := by
        rw [pack_append_of_length_eight hfirst, unpack_cons, unpack_byteOfBits hfirst]
      _ = bs.take 8 ++ (bs.drop 8 ++ List.replicate (padLength bs.length) false) := by
        rw [unpack_pack (bs.drop 8), hpad]
      _ = bs ++ List.replicate (padLength bs.length) false := by
        rw [← List.append_assoc, List.take_append_drop]
termination_by bs.length
decreasing_by rw [List.length_drop]; omega

/-- Settles O31: the output of `ABF` is the packed bits, which `unpack_pack` reads back. -/
theorem abfAppendsThePackedBits : Obligations.AbfAppendsThePackedBits := by
  intro bits s hv
  have hexec := exec_appends_or_overflows (i := .abf bits) hv rfl rfl
  simp only [Instr.output, pack_length] at hexec
  refine ⟨fun hf => ?_, hexec.2⟩
  obtain ⟨t, ht, happ⟩ := hexec.1 hf
  exact ⟨t, pack bits, ht, happ, pack_length bits, unpack_pack bits⟩

/-! ## The fault state -/

/-- A refusal is what `Refused` says, register by register (R155). -/
theorem State.refused_refuse (s : State) : s.Refused s.refuse where
  unwritten := ⟨rfl, fun _ => rfl, rfl, ⟨rfl, rfl⟩, rfl, rfl⟩
  final := rfl
  err := rfl
  resp := rfl

/-- In the fault state the prologue refuses every command that has one (R90). -/
theorem exec_of_fault {i : Instr} {s : State} (hv : s.err.valid = true) (hi : i.readsOnly = false) :
    exec i s = .next s.refuse := by
  cases i with
  | wbyte v => simp [exec, execWbyte, hv]
  | wbytes data => simp [exec, execWbytes, hv]
  | abf bits => simp [exec, execAbf, hv]
  | ocpl x0 x1 => simp [exec, execOcpl, hv]
  | lit n => simp [exec, execLit, hv]
  | rep n => simp [exec, execRep, hv]
  | setfinal f => simp [exec, execSetfinal, hv]
  | snap => cases hi
  | getstat => cases hi

/-- Settles O46: what the prologue answers in the fault state is a refusal. -/
theorem faultStateRefusesCommands : Obligations.FaultStateRefusesCommands :=
  fun _ s hv hi => ⟨_, exec_of_fault hv hi, s.refused_refuse⟩

end Sys2Proof.Machine

/-! # Proofs of the statements of spec/41_encoder.md -/

namespace Sys2Proof.Machine

/-! ## Packing what was unpacked -/

theorem byteOfBits_unpack (b : Byte) : byteOfBits (unpack [b]) = b := by
  refine BitVec.eq_of_getLsbD_eq fun i hi => ?_
  rw [getLsbD_byteOfBits _ _ hi]
  simp [unpack, hi]

/-- Packing the bits of a byte sequence gives it back: they are whole bytes, so there is no padding (R44). -/
theorem pack_unpack (v : List Byte) : pack (unpack v) = v := by
  induction v with
  | nil => rfl
  | cons b v ih => rw [unpack_cons, pack_append_of_length_eight (unpack_length [b]), byteOfBits_unpack, ih]

/-- Settles O25, by `unpack_pack` and `pack_unpack`. -/
theorem unpackInvertsPack : Obligations.UnpackInvertsPack := ⟨unpack_pack, pack_unpack⟩

/-! ## The rows of the table -/

/-- First row of the table (R110). -/
theorem fixedCodeRow_of_le_143 {v : Nat} (h : v ≤ 143) : fixedCodeRow v = ⟨48 + v, 8⟩ := by
  rw [fixedCodeRow, if_pos h]

/-- Second row of the table (R110). -/
theorem fixedCodeRow_of_le_255 {v : Nat} (h0 : 144 ≤ v) (h1 : v ≤ 255) : fixedCodeRow v = ⟨400 + (v - 144), 9⟩ := by
  rw [fixedCodeRow, if_neg (by omega), if_pos h1]

/-- Third row of the table (R110). -/
theorem fixedCodeRow_of_le_279 {v : Nat} (h0 : 256 ≤ v) (h1 : v ≤ 279) : fixedCodeRow v = ⟨v - 256, 7⟩ := by
  rw [fixedCodeRow, if_neg (by omega), if_neg (by omega), if_pos h1]

/-- Last row of the table (R110). -/
theorem fixedCodeRow_of_ge_280 {v : Nat} (h : 280 ≤ v) : fixedCodeRow v = ⟨192 + (v - 280), 8⟩ := by
  rw [fixedCodeRow, if_neg (by omega), if_neg (by omega), if_neg (by omega)]

/-- A value has one of the four rows. -/
theorem fixedCodeRow_cases (v : Nat) :
    (v ≤ 143 ∧ fixedCodeRow v = ⟨48 + v, 8⟩) ∨
    (144 ≤ v ∧ v ≤ 255 ∧ fixedCodeRow v = ⟨400 + (v - 144), 9⟩) ∨
    (256 ≤ v ∧ v ≤ 279 ∧ fixedCodeRow v = ⟨v - 256, 7⟩) ∨
    (280 ≤ v ∧ fixedCodeRow v = ⟨192 + (v - 280), 8⟩) := by
  obtain h | h | h | h : v ≤ 143 ∨ (144 ≤ v ∧ v ≤ 255) ∨ (256 ≤ v ∧ v ≤ 279) ∨ 280 ≤ v := by omega
  · exact .inl ⟨h, fixedCodeRow_of_le_143 h⟩
  · exact .inr (.inl ⟨h.1, h.2, fixedCodeRow_of_le_255 h.1 h.2⟩)
  · exact .inr (.inr (.inl ⟨h.1, h.2, fixedCodeRow_of_le_279 h.1 h.2⟩))
  · exact .inr (.inr (.inr ⟨h, fixedCodeRow_of_ge_280 h⟩))

/-- A value in the table's range has its row as code word. -/
theorem fixedCode_eq_row {v : Int} (h0 : 0 ≤ v) (h1 : v ≤ 287) : fixedCode v = some (fixedCodeRow v.toNat) :=
  (fixedCode_eq_some _ _).mpr ⟨h0, h1, rfl⟩

/-- Outside the fault state, `REP` of a value outside the table takes `SYMBOL_RANGE` (R115). -/
theorem exec_rep_of_out_of_range {n : Int} {s : State} (hv : s.err.valid = false) (h : fixedCode n = none) :
    exec (.rep n) s = .next (s.takeFault .symbolRange (low32 n)) := by
  simp [exec, execRep, hv, h]

/-- Settles O35: a value in the range has its row, and `REP` looks its value up before it appends. -/
theorem fixedCodeIsTheTable : Obligations.FixedCodeIsTheTable := by
  intro v
  refine ⟨(fixedCode_eq_none v).mpr, fun h0 h1 => ?_, fun h0 h1 => ?_, fun h0 h1 => ?_, fun h0 h1 => ?_,
    fun s hv hnone => ⟨_, exec_rep_of_out_of_range hv hnone, s.faulted_takeFault .symbolRange _⟩⟩
  · rw [fixedCode_eq_some, fixedCodeRow_of_le_143 (by omega)]
    exact ⟨h0, by omega, rfl⟩
  · rw [fixedCode_eq_some, fixedCodeRow_of_le_255 (by omega) (by omega), CodeWord.mk.injEq]
    omega
  · rw [fixedCode_eq_some, fixedCodeRow_of_le_279 (by omega) (by omega), CodeWord.mk.injEq]
    omega
  · rw [fixedCode_eq_some, fixedCodeRow_of_ge_280 (by omega), CodeWord.mk.injEq]
    omega

/-! ## No code word begins another -/

theorem getElem_bitsMsb (c w i : Nat) (h : i < (bitsMsb c w).length) : (bitsMsb c w)[i] = c.testBit (w - 1 - i) := by
  simp [bitsMsb]

/-- The first bits of a code word are those of its code without the low bits (R74). -/
theorem take_bitsMsb {c k w : Nat} (h : k ≤ w) : (bitsMsb c w).take k = bitsMsb (c / 2 ^ (w - k)) k := by
  refine List.ext_getElem (by simp [h]) fun i hi _ => ?_
  have hik : i < k := by simp at hi; omega
  rw [List.getElem_take, getElem_bitsMsb, getElem_bitsMsb, Nat.testBit_div_two_pow]
  congr 1
  omega

/-- A code that fits its width is fixed by its bits. -/
theorem bitsMsb_inj {c d w : Nat} (hc : c < 2 ^ w) (hd : d < 2 ^ w) (h : bitsMsb c w = bitsMsb d w) : c = d := by
  refine Nat.eq_of_testBit_eq fun i => ?_
  rcases Nat.lt_or_ge i w with hi | hi
  · have hbit := congrArg (·[w - 1 - i]?) h
    have hlt : w - 1 - i < w := by omega
    have hidx : w - 1 - (w - 1 - i) = i := by omega
    simpa [bitsMsb, hlt, hidx] using hbit
  · rw [Nat.testBit_lt_two_pow (hc.trans_le (Nat.pow_le_pow_right (by decide) hi)),
      Nat.testBit_lt_two_pow (hd.trans_le (Nat.pow_le_pow_right (by decide) hi))]

/-- Where one code word begins another, its code is the other's without the low bits. -/
theorem CodeWord.of_bits_prefix {c d : CodeWord} (hc : c.code < 2 ^ c.width) (hd : d.code < 2 ^ d.width)
    (h : c.bits <+: d.bits) : c.width ≤ d.width ∧ c.code = d.code / 2 ^ (d.width - c.width) := by
  have hle : c.width ≤ d.width := by simpa using h.length_le
  have htake := List.prefix_iff_eq_take.mp h
  rw [CodeWord.bits_length, CodeWord.bits, CodeWord.bits, take_bitsMsb hle] at htake
  have hlt : d.code / 2 ^ (d.width - c.width) < 2 ^ c.width := by
    rwa [Nat.div_lt_iff_lt_mul (by positivity), ← Nat.pow_add, Nat.add_sub_cancel' hle]
  exact ⟨hle, bitsMsb_inj hc hlt htake⟩

/-- Each code fits its width (R111). -/
theorem fixedCodeRow_code_lt {v : Nat} (h : v ≤ 287) : (fixedCodeRow v).code < 2 ^ (fixedCodeRow v).width := by
  obtain ⟨_, hrow⟩ | ⟨_, _, hrow⟩ | ⟨_, _, hrow⟩ | ⟨_, hrow⟩ := fixedCodeRow_cases v
  all_goals
    simp only [hrow]
    omega

/-- No code word of the table begins another (R111): with its low bits cut off, a wider row's code stays out of the
range of each narrower row. -/
theorem fixedCodeRow_prefix_free {u v : Nat} (hu : u ≤ 287) (hv : v ≤ 287)
    (h : (fixedCodeRow u).bits <+: (fixedCodeRow v).bits) : u = v := by
  obtain ⟨hle, hcode⟩ := CodeWord.of_bits_prefix (fixedCodeRow_code_lt hu) (fixedCodeRow_code_lt hv) h
  obtain ⟨_, hru⟩ | ⟨_, _, hru⟩ | ⟨_, _, hru⟩ | ⟨_, hru⟩ := fixedCodeRow_cases u
  all_goals
    obtain ⟨_, hrv⟩ | ⟨_, _, hrv⟩ | ⟨_, _, hrv⟩ | ⟨_, hrv⟩ := fixedCodeRow_cases v
    all_goals
      simp only [hru, hrv] at hle hcode
      omega

/-- A search finds an element that alone satisfies the predicate. -/
theorem find?_eq_some_of_unique {α : Type} {l : List α} {p : α → Bool} {a : α} (ha : a ∈ l) (hp : p a = true)
    (hunique : ∀ b ∈ l, p b = true → b = a) : l.find? p = some a := by
  obtain ⟨b, hb⟩ := Option.isSome_iff_exists.mp (List.find?_isSome.mpr ⟨a, ha, hp⟩)
  rw [hb, hunique b (List.mem_of_find?_eq_some hb) (List.find?_some hb)]

/-- A value is read back from its code word, whatever follows (R111). -/
theorem readSymbol_bits_append {v : Nat} (h : v ≤ 287) (rest : List Bit) :
    readSymbol ((fixedCodeRow v).bits ++ rest) = some (v, rest) := by
  rw [readSymbol, find?_eq_some_of_unique (a := v)]
  · simp only [List.drop_left' (CodeWord.bits_length _)]
  · exact List.mem_range.mpr (Nat.lt_succ_of_le h)
  · exact List.isPrefixOf_iff_prefix.mpr (List.prefix_append _ rest)
  · intro u hu hpre
    have hule : u ≤ 287 := Nat.le_of_lt_succ (List.mem_range.mp hu)
    rcases List.prefix_or_prefix_of_prefix (List.isPrefixOf_iff_prefix.mp hpre) (List.prefix_append _ rest) with
      huv | hvu
    · exact fixedCodeRow_prefix_free hule h huv
    · exact (fixedCodeRow_prefix_free h hule hvu).symm

/-- Settles O36: `fixed_code` answers the rows of the table's range, and no code word among them begins another. -/
theorem fixedCodeIsTotalAndPrefixFree : Obligations.FixedCodeIsTotalAndPrefixFree := by
  refine ⟨fun v => ⟨?_, fun ⟨h0, h1⟩ => ⟨_, fixedCode_eq_row h0 h1⟩⟩, fun v c hc => ?_, fun u v c d hc hd hpre => ?_,
    fun v c rest hc => ?_⟩
  · rintro ⟨c, hc⟩
    obtain ⟨h0, h1, -⟩ := (fixedCode_eq_some v c).mp hc
    exact ⟨h0, h1⟩
  · obtain ⟨_, h1, rfl⟩ := (fixedCode_eq_some v c).mp hc
    exact ⟨fixedCodeRow_code_lt (by omega), CodeWord.bits_length _⟩
  · obtain ⟨_, _, rfl⟩ := (fixedCode_eq_some u c).mp hc
    obtain ⟨_, _, rfl⟩ := (fixedCode_eq_some v d).mp hd
    have huv : u.toNat = v.toNat := fixedCodeRow_prefix_free (by omega) (by omega) hpre
    omega
  · obtain ⟨_, h1, rfl⟩ := (fixedCode_eq_some v c).mp hc
    exact readSymbol_bits_append (by omega) rest

/-! ## The literal header -/

/-- Outside the fault state, `LIT` of a number that is no length takes `LEN_RANGE` (R112). -/
theorem exec_lit_of_out_of_range {n : Int} {s : State} (hv : s.err.valid = false) (h : n < 0 ∨ 65535 < n) :
    exec (.lit n) s = .next (s.takeFault .lenRange (low32 n)) := by
  have hr : n < 0 ∨ n > Config.lenMax := h
  simp [exec, execLit, hv, hr]

/-- Settles O37: the range check first, then the append of `literalBytes_eq` and its capacity check. -/
theorem litAppendsTheHeaderOrFaults : Obligations.LitAppendsTheHeaderOrFaults := by
  intro n s hv
  have hexec (h0 : 0 ≤ n) (h1 : n ≤ 65535) := exec_appends_or_overflows hv rfl ((accepted_lit_iff n).mpr ⟨h0, h1⟩)
  simp only [Instr.output, literalBytes_length] at hexec
  refine ⟨fun h0 h1 hf => ?_, fun h => ⟨_, exec_lit_of_out_of_range hv h, s.faulted_takeFault .lenRange _⟩,
    fun h0 h1 => (hexec h0 h1).2⟩
  rw [← literalBytes_eq s.final (by omega)]
  exact (hexec h0 h1).1 hf

/-- Settles O38: the two fields are read back from where `LIT` put them, and the second is the complement of the
first. -/
theorem literalHeaderReadsBack : Obligations.LiteralHeaderReadsBack := by
  intro n s t h0 h1 h hr
  obtain ⟨k, rfl⟩ := Int.eq_ofNat_of_zero_le h0
  have happ : s.Appended t ([BitVec.ofNat 8 s.final.toNat] ++ be 2 k ++ onesComplement (be 2 k)) := by
    rw [(exec_did _ _ _ h).appended_of_ok rfl hr, ← pack_hdr_stored]
    exact s.appended_append (literalBytes s.final k)
  have hlen : fromBe (be 2 k) = k := by rw [fromBe_be, Nat.mod_eq_of_lt (by omega)]
  have hnlen : fromBe (onesComplement (be 2 k)) = k ^^^ 65535 := by
    simp [fromBe_onesComplement, hlen]
  refine ⟨happ.stored 0 _ rfl, be 2 k, onesComplement (be 2 k), ?_, ?_, ?_, ?_, ?_⟩
  · simpa only [List.length_singleton, be_length] using happ.memRead
  · rw [← List.append_nil (_ ++ onesComplement _)] at happ
    simpa only [List.length_append, List.length_singleton, onesComplement_length, be_length] using happ.memRead
  · rw [hlen]
  · have hxor : k ^^^ 65535 = 65535 - k := xor_two_pow_sub_one (k := 16) (by omega)
    rw [hnlen, hxor]
    omega
  · rw [hlen, hnlen, Nat.xor_xor_cancel_left]

/-! ## What `LIT` keeps of its operand -/

/-- Two appends of one length lead to states that differ in the bytes alone, also where there is no room. -/
theorem State.appendCommand_with_mem (s : State) {v w : List Byte} (h : v.length = w.length) :
    { s.appendCommand v with mem := (s.appendCommand w).mem } = s.appendCommand w := by
  simp only [State.appendCommand, h]
  split
  · simp only [State.append, h]
    rfl
  · rfl

/-- An appending command moves `WPTR` by no more than its bytes. -/
theorem State.appendCommand_wptr_le (s : State) (v : List Byte) : (s.appendCommand v).wptr ≤ s.wptr + v.length := by
  rcases s.appendCommand_cases v with ⟨_, h⟩ | ⟨_, h⟩
  · simp [h]
  · simp [h]

/-- An appending command leaves every byte outside its own alone (R41, R46). -/
theorem State.read_appendCommand_outside (s : State) (v : List Byte) {a : Nat}
    (h : a < s.wptr ∨ s.wptr + v.length ≤ a) : Memory.read (s.appendCommand v).mem a = Memory.read s.mem a := by
  rcases s.appendCommand_cases v with ⟨_, happ⟩ | ⟨_, hfault⟩
  · rw [happ]
    exact Memory.read_writeSeq_outside v s.mem s.wptr a h
  · rw [hfault, State.takeFault_mem]

/-- Settles O57: in the fault state both commands are refused alike, and else both come to append five bytes. -/
theorem litKeepsNothingOfTheLength : Obligations.LitKeepsNothingOfTheLength := by
  intro n m s t u hn hm ht hu
  cases hv : s.err.valid with
  | true =>
    rw [exec_of_fault hv rfl] at ht hu
    cases ht
    cases hu
    exact ⟨rfl, Nat.le_add_right _ _, fun _ _ => rfl⟩
  | false =>
    rw [exec_of_accepted hv rfl ((accepted_lit_iff _).mpr (by omega))] at ht hu
    cases ht
    cases hu
    have hlen (k : Nat) : ((Instr.lit k).output s.final).length = 5 := literalBytes_length _ _
    refine ⟨s.appendCommand_with_mem ((hlen n).trans (hlen m).symm), ?_, fun a ha => ?_⟩
    · exact hlen n ▸ s.appendCommand_wptr_le _
    · exact s.read_appendCommand_outside _ ((hlen n).symm ▸ ha)

/-! ## The repeat block -/

/-- The widths of the table's rows (R110). -/
theorem fixedCodeRow_width (v : Nat) :
    (fixedCodeRow v).width = if 144 ≤ v ∧ v ≤ 255 then 9 else if 256 ≤ v ∧ v ≤ 279 then 7 else 8 := by
  obtain ⟨h, hrow⟩ | ⟨h0, h1, hrow⟩ | ⟨h0, h1, hrow⟩ | ⟨h, hrow⟩ := fixedCodeRow_cases v
  · rw [hrow, if_neg (by omega), if_neg (by omega)]
  · rw [hrow, if_pos ⟨h0, h1⟩]
  · rw [hrow, if_neg (by omega), if_pos ⟨h0, h1⟩]
  · rw [hrow, if_neg (by omega), if_neg (by omega)]

/-- The bits of the block `REP n` appends, before padding. -/
theorem repeatBits_rows_length (f : Bit) {n : Int} (h0 : 0 ≤ n) (h1 : n ≤ 287) :
    (repeatBits f (fixedCodeRow (n / 2).toNat) (fixedCodeRow n.toNat)).length =
      if 144 ≤ n ∧ n ≤ 255 then 37 else if 256 ≤ n ∧ n ≤ 279 then 33 else 35 := by
  rw [repeatBits_length, fixedCodeRow_width_of_le (by omega), fixedCodeRow_width]
  split_ifs <;> omega

/-- The block is padded to five bytes (R75, R116). -/
theorem padLength_repeatBits_rows (f : Bit) {n : Int} (h0 : 0 ≤ n) (h1 : n ≤ 287) :
    padLength (repeatBits f (fixedCodeRow (n / 2).toNat) (fixedCodeRow n.toNat)).length =
      if 144 ≤ n ∧ n ≤ 255 then 3 else if 256 ≤ n ∧ n ≤ 279 then 7 else 5 := by
  rw [repeatBits_rows_length f h0 h1]
  split_ifs <;> rfl

/-- The block of `REP n`, unpacked: the header, the pair of code words twice, and the padding (R73, R115). -/
theorem unpack_output_rep (f : Bit) {n : Int} (h0 : 0 ≤ n) (h1 : n ≤ 287) :
    unpack ((Instr.rep n).output f) =
      repeatBits f (fixedCodeRow (n / 2).toNat) (fixedCodeRow n.toNat) ++
        List.replicate (if 144 ≤ n ∧ n ≤ 255 then 3 else if 256 ≤ n ∧ n ≤ 279 then 7 else 5) false := by
  rw [Instr.output, unpack_pack, padLength_repeatBits_rows f h0 h1]

/-- Settles O39: the table lookup first, then the append of the block of `unpack_output_rep` and its capacity check. -/
theorem repAppendsTheBlockOrFaults : Obligations.RepAppendsTheBlockOrFaults := by
  intro n s hv
  have hexec (h0 : 0 ≤ n) (h1 : n ≤ 287) := exec_appends_or_overflows hv rfl ((accepted_rep_iff n).mpr ⟨h0, h1⟩)
  refine ⟨fun h0 h1 hf => ?_, fun h => ?_, fun h0 h1 hf => ?_⟩
  · have hlen := output_rep_length s.final h0 h1
    obtain ⟨t, ht, happ⟩ := (hexec h0 h1).1 (by rwa [hlen])
    exact ⟨t, _, _, _, ht, happ, hlen, fixedCode_eq_row (by omega) (by omega), fixedCode_eq_row h0 h1,
      unpack_output_rep s.final h0 h1⟩
  · exact ⟨_, exec_rep_of_out_of_range hv ((fixedCode_eq_none n).mpr h), s.faulted_takeFault .symbolRange _⟩
  · have hoverflow := (hexec h0 h1).2
    rw [output_rep_length s.final h0 h1] at hoverflow
    exact hoverflow hf

/-- Settles O40: outside the table `REP` faults, and in it every block has five bytes. -/
theorem repAcceptsExactlyTheTableRange : Obligations.RepAcceptsExactlyTheTableRange := by
  intro n s hv hf
  have hexec (h0 : 0 ≤ n) (h1 : n ≤ 287) : ∃ t, exec (.rep n) s = .next t ∧ s.Appended t ((Instr.rep n).output s.final) :=
    (exec_appends_or_overflows hv rfl ((accepted_rep_iff n).mpr ⟨h0, h1⟩)).1 (by rwa [output_rep_length _ h0 h1])
  refine ⟨⟨?_, fun ⟨h0, h1⟩ => ?_⟩, fun h0 h1 => ?_, fun lc dc hl hd => ?_⟩
  · rintro ⟨t, r, ht, hr, hok⟩
    by_contra hrange
    rw [exec_rep_of_out_of_range hv ((fixedCode_eq_none n).mpr (by omega))] at ht
    cases ht
    cases hr
    cases hok
  · obtain ⟨t, ht, happ⟩ := hexec h0 h1
    exact ⟨t, _, ht, happ.resp, rfl⟩
  · obtain ⟨t, ht, happ⟩ := hexec h0 h1
    exact ⟨t, ht, output_rep_length s.final h0 h1 ▸ happ.wptr⟩
  · obtain ⟨_, _, rfl⟩ := (fixedCode_eq_some _ lc).mp hl
    obtain ⟨h0, h1, rfl⟩ := (fixedCode_eq_some _ dc).mp hd
    have hwidth : (fixedCodeRow (n / 2).toNat).width = 8 := fixedCodeRow_width_of_le (by omega)
    exact ⟨hwidth, by rw [repeatBits_length, hwidth], repeatBits_rows_length s.final h0 h1⟩

/-- All that was appended is read back from the old `WPTR` on (R42). -/
theorem State.Appended.memRead_all {s t : State} {v : List Byte} (h : s.Appended t v) :
    t.memRead s.wptr v.length = some v := by
  rw [← List.nil_append v, ← List.append_nil ([] ++ v)] at h
  simpa using h.memRead

/-- Values in the table's range are read back from the sequence of their code words, whatever follows (R117). -/
theorem readSymbols_flatMap_bits {vs : List Nat} (h : ∀ v ∈ vs, v ≤ 287) (rest : List Bit) :
    readSymbols vs.length (vs.flatMap (fun v => (fixedCodeRow v).bits) ++ rest) = some (vs, rest) := by
  induction vs with
  | nil => rfl
  | cons v vs ih =>
    obtain ⟨hv, hvs⟩ := List.forall_mem_cons.mp h
    rw [List.length_cons, List.flatMap_cons, List.append_assoc, readSymbols, readSymbol_bits_append hv]
    simp only [ih hvs]

/-- Settles O41: the five bytes are the output of `REP`, and after the header its bits are the code words of the two
pairs. -/
theorem repBlockReadsAsTwoIdenticalPairs : Obligations.RepBlockReadsAsTwoIdenticalPairs := by
  intro n s t h hr
  have hdid := exec_did _ _ _ h
  obtain ⟨h0, h1⟩ := (accepted_rep_iff n).mp (hdid.accepted_of_ok rfl hr)
  have hread : t.memRead s.wptr 5 = some ((Instr.rep n).output s.final) := by
    have happ := s.appended_append ((Instr.rep n).output s.final)
    rw [← hdid.appended_of_ok rfl hr] at happ
    exact output_rep_length s.final h0 h1 ▸ happ.memRead_all
  have hhalf : ((n : Int) / 2).toNat = n / 2 := by omega
  have hpairs := readSymbols_flatMap_bits (vs := [n / 2, n, n / 2, n]) (by simp; omega)
  refine ⟨_, hread, ?_⟩
  rw [unpack_output_rep s.final h0 h1, repeatBits_eq_cons, hhalf]
  simpa using hpairs _

end Sys2Proof.Machine

/-! # Proofs of the statements of spec/42_control.md -/

namespace Sys2Proof.Machine

/-! ## The flag and the writer commands -/

/-- An appending operation does not look at the flag. -/
theorem State.appendCommand_with_final (s : State) (v : List Byte) (f : Bit) :
    State.appendCommand { s with final := f } v = { s.appendCommand v with final := f } := by
  rcases s.appendCommand_cases v with ⟨hf, h⟩ | ⟨hf, h⟩
  · rw [h]
    exact if_pos hf
  · rw [h]
    exact if_neg (Bool.eq_false_iff.mp hf)

/-- The prologue does not look at the flag, so a command behind it does not where its body does not. -/
theorem State.prologue_with_final (s : State) {body : State → State} {f : Bit}
    (h : body { s with final := f } = { body s with final := f }) :
    State.prologue { s with final := f } body = { s.prologue body with final := f } := by
  rcases s.prologue_cases body with ⟨hv, hp⟩ | ⟨hv, hp⟩
  · rw [hp]
    exact State.prologue_of_fault _ body hv
  · rw [hp, ← h]
    exact State.prologue_of_clear _ body hv

/-- Settles O7: `SNAP` reads `BUF` and `WPTR` alone; the other four commands stand behind the prologue, and neither a
range check nor an append nor an answer looks at the flag. -/
theorem finalDoesNotReachWriterCommands : Obligations.FinalDoesNotReachWriterCommands := by
  rintro i s t f (⟨v, rfl⟩ | ⟨data, rfl⟩ | ⟨bits, rfl⟩ | ⟨x0, x1, rfl⟩ | rfl) h
  · cases h
    refine congrArg Host.Outcome.next (s.prologue_with_final ?_)
    split
    · rfl
    · exact s.appendCommand_with_final _ f
  · cases h
    exact congrArg Host.Outcome.next (s.prologue_with_final (s.appendCommand_with_final data f))
  · cases h
    exact congrArg Host.Outcome.next (s.prologue_with_final (s.appendCommand_with_final (pack bits) f))
  · cases h
    exact congrArg Host.Outcome.next (s.prologue_with_final rfl)
  · obtain ⟨data, hread, rfl⟩ := (exec_snap_eq_next s t).mp h
    exact (exec_snap_eq_next _ _).mpr ⟨data, hread, rfl⟩

/-! ## The flag is set -/

/-- Settles O44: outside the fault state the prologue lets `SETFINAL` write the flag and answer. -/
theorem setfinalWritesTheFlag : Obligations.SetfinalWritesTheFlag := by
  intro f s hv
  have hexec : exec (.setfinal f) s = .next ({ s with final := f }.ok []) := by simp [exec, execSetfinal, hv]
  exact ⟨_, hexec, rfl, ⟨rfl, fun _ => rfl, rfl, ⟨rfl, rfl⟩, rfl, rfl⟩, rfl, rfl⟩

/-! ## The status word -/

/-- The status word as a number and by its fields (R32), checked at all 32 values its three registers take together. -/
theorem State.statusWord_fields (s : State) :
    s.statusWord.toNat = s.final.toNat + 2 * s.err.valid.toNat + 4 * s.err.cause.toNat ∧
    s.statusWord.getLsbD 0 = s.final ∧ s.statusWord.getLsbD 1 = s.err.valid ∧
    s.statusWord.extractLsb' 2 3 = s.err.cause ∧ s.statusWord.extractLsb' 5 3 = 0#3 := by
  unfold State.statusWord
  generalize s.final = final, s.err.valid = valid, s.err.cause = cause
  revert final valid cause
  decide

/-! ## Numbers that widen -/

/-- `byteLength v` is the least number of bytes that hold `v`. -/
theorem byteLength_le_iff (v n : Nat) : byteLength v ≤ n ↔ v < 256 ^ n := by
  rw [byteLength]
  split
  · next h => simp [h]
  · next h =>
    have hpow : 256 ^ n = 2 ^ (8 * n) := by rw [Nat.pow_mul]
    rw [hpow, ← Nat.log2_lt h]
    omega

@[simp] theorem beAtLeast_length (n v : Nat) : (beAtLeast n v).length = max n (byteLength v) := be_length _ _

/-- A widened number is the number itself (log entry 6). -/
theorem fromBe_beAtLeast (n v : Nat) : fromBe (beAtLeast n v) = v := by
  have hlt : v < 256 ^ max n (byteLength v) := (byteLength_le_iff v _).mp (Nat.le_max_right _ _)
  rw [beAtLeast, fromBe_be, Nat.mod_eq_of_lt hlt]

/-- Settles O45: the answer is the status word, `ERR.value` in the 4 bytes that hold its 32 bits, and `WPTR` in 8 bytes
or as many as it needs. -/
theorem getstatAnswersTheRegisters : Obligations.GetstatAnswersTheRegisters := by
  intro s
  have hvalue : fromBe (be 4 s.err.value.toNat) = s.err.value.toNat := by
    rw [fromBe_be, Nat.mod_eq_of_lt (by simpa using s.err.value.isLt)]
  have hwidth (hw : s.wptr < 2 ^ 64) : byteLength s.wptr ≤ 8 := (byteLength_le_iff _ _).mpr (by simpa using hw)
  obtain ⟨hnum, hfinal, hvalid, hcause, hzero⟩ := s.statusWord_fields
  exact ⟨s.ok s.statusData, s.statusWord, be 4 s.err.value.toNat, beAtLeast 8 s.wptr, rfl, s.answered_ok _,
    hnum, hfinal, hvalid, hcause, hzero, be_length _ _, hvalue, by simp,
    fun hw => by simpa using hwidth hw, fromBe_beAtLeast 8 s.wptr⟩

end Sys2Proof.Machine

/-! # Proofs of the statements of spec/60_exceptions.md -/

namespace Sys2Proof.Machine

/-! ## Idling and illegal words -/

/-- Settles O55: an empty port decodes to nothing presented. -/
theorem idleStepRetainsTheState : Obligations.IdleStepRetainsTheState := by
  intro s hp
  simp only [step, hp, decode]

/-- Settles O48: a word without a row is illegal, and in the fault state the prologue refuses it before it takes its
fault. -/
theorem illegalWordInFaultStateIsRefused : Obligations.IllegalWordInFaultStateIsRefused := by
  intro s w rest hp hrow hv
  refine ⟨_, step_of_illegal hp (wordOp_eq_none_of_no_row hrow), ?_⟩
  rw [State.takeIllegal, State.prologue_of_fault { s with port := rest } _ hv]
  exact State.refused_refuse _

/-! ## The fault state -/

/-- In the fault state a command is refused or answers, and neither writes a register. -/
theorem Did.kept_of_fault {i : Instr} {s t : State} (h : Did i s t) (hv : s.err.valid = true) :
    t.err = s.err ∧ t.mem = s.mem ∧ t.wptr = s.wptr ∧ t.final = s.final := by
  cases h with
  | refused _ _ ht => simp [ht]
  | faulted _ _ hclear _ => simp [hv] at hclear
  | appended hclear _ _ _ _ => simp [hv] at hclear
  | answered _ _ _ _ _ ht => simp [ht]
  | flagged _ hclear _ _ => simp [hv] at hclear

/-- In the fault state a step that is not the reset event writes no register. -/
theorem Stepped.kept_of_fault {s t : State} (h : Stepped s t) (hv : s.err.valid = true)
    (hr : ∀ rest, s.port ≠ .reset :: rest) : t.err = s.err ∧ t.mem = s.mem ∧ t.wptr = s.wptr ∧ t.final = s.final := by
  cases h with
  | idle _ ht => simp [ht]
  | reset rest hp _ => exact absurd hp (hr rest)
  | command _ _ _ ht => exact ht.kept_of_fault hv
  | illegalRefused _ _ _ _ _ ht => simp [ht]
  | illegalFaulted _ _ _ _ hclear _ => simp [hv] at hclear

/-- Settles O47, by cases on what a command and what a step can do in the fault state. -/
theorem faultStateIsLeftOnlyByReset : Obligations.FaultStateIsLeftOnlyByReset :=
  fun s t hv hr h => (step_did s t h).kept_of_fault hv hr

/-! ## What a fault writes -/

/-- A command that reports a fault was issued with none recorded, and all it did is take the fault (R153). -/
theorem Did.takeFault_of_reported {i : Instr} {s t : State} (h : Did i s t) {r : Response} (hr : t.resp = some r)
    (hf : r.status = .fault) : s.err.valid = false ∧ ∃ c value, t = s.takeFault c value := by
  cases h with
  | refused _ _ ht => subst ht; cases hr; cases hf
  | faulted c value hv ht => exact ⟨hv, c, value, ht⟩
  | appended _ _ _ _ ht => subst ht; cases hr; cases hf
  | answered _ _ _ _ _ ht => subst ht; cases hr; cases hf
  | flagged _ _ _ ht => subst ht; cases hr; cases hf

/-- A command that left a fault recorded where there was none took that fault and did nothing else (R153). -/
theorem Did.takeFault_of_recorded {i : Instr} {s t : State} (h : Did i s t) (hs : s.err.valid = false)
    (hv : t.err.valid = true) : ∃ c value, t = s.takeFault c value := by
  cases h with
  | refused hset _ _ => simp [hs] at hset
  | faulted c value _ ht => exact ⟨c, value, ht⟩
  | appended _ _ _ _ ht => simp [ht, hs] at hv
  | answered _ _ _ _ _ ht => simp [ht, hs] at hv
  | flagged _ _ _ ht => simp [ht, hs] at hv

/-- Whatever a command did, it ends with the scratch space empty (R23). -/
theorem Did.scratch_empty {i : Instr} {s t : State} (h : Did i s t) : t.acc = [] ∧ t.cnt = 0 := by
  cases h with
  | refused _ _ ht => simp [ht]
  | faulted _ _ _ ht => simp [ht]
  | appended _ _ _ _ ht => simp [ht]
  | answered _ _ _ _ _ ht => simp [ht]
  | flagged _ _ _ ht => simp [ht]

/-- Settles O49: what reports a fault is the taking of one, which writes `ERR` alone. -/
theorem faultingCommandWritesNothing : Obligations.FaultingCommandWritesNothing := by
  intro i s t r h hr hf
  obtain ⟨hv, c, value, rfl⟩ := (exec_did i s t h).takeFault_of_reported hr hf
  cases hr
  exact ⟨hv, s.faulted_takeFault c value⟩

/-- Settles O58: what records a fault is the taking of one, which leaves `BUF` and `WPTR` alone, and the two named
operands are beyond the ranges of `LIT` and `REP`. -/
theorem faultingCommandAppendsNothing : Obligations.FaultingCommandAppendsNothing := by
  constructor
  · intro i s t h
    have hdid := exec_did i s t h
    obtain ⟨hacc, hcnt⟩ := hdid.scratch_empty
    refine ⟨hacc, hcnt, fun hs hv => ?_⟩
    obtain ⟨c, value, rfl⟩ := hdid.takeFault_of_recorded hs hv
    exact ⟨rfl, rfl⟩
  · rintro i s (rfl | rfl) hv
    · exact ⟨_, exec_lit_of_out_of_range hv (by decide), rfl, rfl⟩
    · exact ⟨_, exec_rep_of_out_of_range hv ((fixedCode_eq_none 288).mpr (by decide)), rfl, rfl⟩

/-! ## The priority of faults -/

theorem not_accepted_wbyte_iff (v : Int) : (Instr.wbyte v).accepted = false ↔ v < 0 ∨ 255 < v := by
  rw [← Bool.not_eq_true, accepted_wbyte_iff]
  omega

theorem not_accepted_lit_iff (n : Int) : (Instr.lit n).accepted = false ↔ n < 0 ∨ 65535 < n := by
  rw [← Bool.not_eq_true, accepted_lit_iff]
  omega

theorem not_accepted_rep_iff (n : Int) : (Instr.rep n).accepted = false ↔ n < 0 ∨ 287 < n := by
  rw [← Bool.not_eq_true, accepted_rep_iff]
  omega

/-- Settles O50: the prologue refuses before anything else, an illegal word has no operand to check, and the three range
checks stand before the capacity check of the append. -/
theorem faultsHaveTheStatedPriority : Obligations.FaultsHaveTheStatedPriority := by
  refine ⟨faultStateRefusesCommands, fun s w rest hp hrow => ?_, fun v s hv => ⟨fun ha => ?_, fun ha => ?_, fun ha => ?_⟩,
    fun i s hv hi ha => (exec_appends_or_overflows hv hi ha).2⟩
  · split
    · next hv => exact illegalWordInFaultStateIsRefused s w rest hp hrow hv
    · next hv => exact illegalWordRaisesIllegalCommand s w rest hp hrow (Bool.eq_false_iff.mpr hv)
  · exact ⟨_, exec_wbyte_of_out_of_range hv ((not_accepted_wbyte_iff v).mp ha), s.faulted_takeFault .byteRange _⟩
  · exact ⟨_, exec_lit_of_out_of_range hv ((not_accepted_lit_iff v).mp ha), s.faulted_takeFault .lenRange _⟩
  · have hnone : fixedCode v = none := (fixedCode_eq_none v).mpr ((not_accepted_rep_iff v).mp ha)
    exact ⟨_, exec_rep_of_out_of_range hv hnone, s.faulted_takeFault .symbolRange _⟩

end Sys2Proof.Machine

/-! # Proofs of the statements of spec/70_reset_and_hazards.md -/

namespace Sys2Proof.Machine

/-! ## The byte order of a length -/

/-- The two bytes of a length, read least significant first. -/
theorem fromBe_reverse_be_two {n : Nat} (h : n ≤ 65535) : fromBe (be 2 n).reverse = 256 * (n % 256) + n / 256 := by
  have hhigh : n / 256 % 256 = n / 256 := Nat.mod_eq_of_lt (by omega)
  simp [be_two, fromBe_cons, hhigh, Nat.mul_comm]

/-- Settles O28: the reversed reading exchanges the two base-256 digits of `n`, and two equal digits `b` make
`0x0101 * b`. -/
theorem lengthReadsTheSameOnlyForEqualBytes : Obligations.LengthReadsTheSameOnlyForEqualBytes := by
  intro n h
  rw [fromBe_reverse_be_two h]
  refine ⟨by omega, fun heq => ⟨n % 256, by omega, by omega⟩, ?_⟩
  rintro ⟨b, hb, rfl⟩
  omega

/-! ## The reset event -/

/-- Settles O54: a port that begins with the reset event decodes to it, whatever the rest of the state. -/
theorem resetEventRestoresTheResetState : Obligations.ResetEventRestoresTheResetState := by
  intro s rest hp
  simp only [step, hp, decode, State.applyReset]

end Sys2Proof.Machine
